-- ==== Sys2Proof/Word.lean ====
section
/-! DEFINITION. The word types of the block. Registers are unsigned values of a fixed width and bit 0
is the least significant bit (spec/00_scope.md R9); the builder's arithmetic is exact, on `Nat`. -/

namespace Sys2Proof

/-- A value of a 32-bit register of the BLK space, or an operation word (R20, R101). -/
abbrev Word := BitVec 32

/-- A 16-bit register of the task-file or extended-LBA image (R30, R35). -/
abbrev Half := BitVec 16

/-- An 8-bit register, and one byte of the PRD table storage (R30, R38). -/
abbrev Byte := BitVec 8

end Sys2Proof
end

