-- ==== Sys2Proof/Config.lean ====
section
/-! DEFINITION. What the spec fixes once (spec/00_scope.md R7) and what it leaves open: the free values
are constants WITHOUT a body, so nothing can be proved of them (spec/93_implementation_defined.md). -/

namespace Sys2Proof

/-- PRD_MAX of R7: the entries of the PRD table. -/
abbrev prdMax : Nat := 64

/-- PRD_ENTRY_BYTES of R7. -/
abbrev prdEntryBytes : Nat := 8

/-- The PRD table storage is 512 bytes, offsets 0..511 (R38). -/
abbrev prdTableBytes : Nat := 512

/-- BLOCK64K of R7: a PRD entry never crosses a multiple of it. -/
abbrev block64K : Nat := 0x10000

/-- One physically contiguous run of the data buffer, as the segment provider answers it
(R14 "Segment", R162). Addresses and lengths are exact naturals (R163, D15). -/
structure Segment where
  addr : Nat
  len  : Nat
deriving DecidableEq, Repr

/-- What one segment query answers: no further segment, or a segment (R162). -/
abbrev SegAnswer := Option Segment

/-- One PRD entry as three fields (R39). -/
structure PrdEntry where
  bufferPtr : Word
  byteCount : Half
  flags     : Half
deriving DecidableEq, Repr, Inhabited

/-- The open parameter ENGINE_ZERO_COUNT (D26): how the engine reads a byte count of 0. -/
inductive ZeroCount where
  /-- A count of 0 stands for 65536 bytes. -/
  | bytes65536
  /-- The engine's data traffic for that entry is any value. -/
  | undefined
deriving DecidableEq, Repr, Inhabited

/-- ENGINE_ZERO_COUNT itself: an argument of the model, never a chosen value (R8, D26, U4).
Log entry 8. -/
opaque Config.engineZeroCount : ZeroCount

/-- The byte the PRD table storage holds at an offset after power-on, before anything wrote it:
an arbitrary draw (R48, U1). Log entry 2. -/
opaque Config.prdPowerOn : Nat → Byte

/-- The segment provider's answer to SegQuery(pos, rem) (the second and third argument), drawn afresh
at every query: the first argument counts the draws (R162, D14). Log entry 5. -/
opaque Config.segAnswer : Nat → Nat → Nat → SegAnswer

/-- Bits 7:3 of BM_STATUS as one read returns them: a draw (R215, U9). Log entry 7. -/
opaque Config.bmStatusHigh : Nat → BitVec 5

/-- What the engine reads as entry `i` of a table whose base (the first argument) breaks the
placement duty (R79, U5). Log entry 9. -/
opaque Config.strayEntry : Word → Nat → PrdEntry

end Sys2Proof
end

