-- ==== Sys2Proof/Syntax.lean ====
section
/-! DEFINITION. The nine operations of spec/opcode_table.json (R104), the names of the BLK-space registers
(R20) and the assembly lines of R110 and R111. -/

namespace Sys2Proof

/-- An operation the host issues through OPR (R2, R104). The operands are held at the exact widths
of the fields UNIT [11:8] and XCMD [23:16] of the operation word (R101, R102), so an operand that does
not fit its field cannot be written down. -/
inductive Instr where
  /-- NOP (R130). -/
  | nop
  /-- CMDRESET (R131). -/
  | cmdreset
  /-- SETLBA28 unit (R132). -/
  | setlba28 (unit : BitVec 4)
  /-- SETXLBA unit, xcmd (R133). -/
  | setxlba (unit : BitVec 4) (xcmd : Byte)
  /-- GETXLBA (R134). -/
  | getxlba
  /-- XZERO (R135). -/
  | xzero
  /-- STARTDMA (R204). -/
  | startdma
  /-- STOPDMA (R203). -/
  | stopdma
  /-- ONINT (R205). -/
  | onint
deriving DecidableEq, Repr

/-- The registers of the BLK space that R20 names, but for the PRD window. -/
inductive Reg where
  | opr | opstat | arg0 | arg1 | arg2 | res0 | res1 | dmastate | prdbase
  | cmdFlags | cmdPosition | cmdByteCount | cmdActual
  | tfData | tfDevCtl | tfFeatures | tfSecCount | tfSecNum | tfCylLo | tfCylHi | tfDevHead | tfCommand
  | xlLbaLow16 | xlLbaMid16 | xlLbaHigh16 | xlSecCount16 | xlFeatures16 | xlDevice | xlCommand
deriving DecidableEq, Repr

/-- A register as an assembly line names it: by its name or by an offset (R110). -/
inductive RegRef where
  | named (r : Reg)
  | offset (o : Nat)
deriving DecidableEq, Repr

/-- A line of a host program (R110), the pseudo-instructions of R111 among them. Operands are the
numbers written in the line; `AsmLine.wellFormed` checks their ranges. -/
inductive AsmLine where
  | wr (reg : RegRef) (value : Nat)
  | rd (reg : RegRef)
  | nop | cmdreset
  | setlba28 (unit : Nat)
  | setxlba (unit xcmd : Nat)
  | getxlba | xzero | startdma | stopdma | onint
  | lba28 (unit lba : Nat)
  | lba48 (unit hi lo cnt xc : Nat)
  | xlbard
  | xfer (flags pos len : Nat)
deriving DecidableEq, Repr

end Sys2Proof
end

