-- ==== Sys2Proof/Machine/State.lean ====
section
/-! DEFINITION. The state of the block (spec/10_state.md), of the engine agent (R43, R215) and of the model's own
record of what reaches the block and what leaves it; the reasons a step can stop; the state after
power-on reset (R47). -/

namespace Sys2Proof.Machine

/-- The states of the DMA state machine (R40, R201). -/
inductive DmaState where
  | inactive | starting | status | complete | error
deriving DecidableEq, Repr

/-- The registers of the external bus-master engine (R200). -/
inductive BmReg where
  | cmd | status | prdtp
deriving DecidableEq, Repr

/-- One access to the engine's registers by the block, in the order it was issued (R13, R81). -/
inductive BmAccess where
  /-- `BMWrite(r, v)`. -/
  | write (r : BmReg) (v : Word)
  /-- `BMRead(r)`. -/
  | read (r : BmReg)
deriving DecidableEq, Repr

/-- The arguments of one `SegQuery(pos, rem)` (R162). -/
structure SegQuery where
  pos : Nat
  rem : Nat
deriving DecidableEq, Repr

/-- What reaches the machine from outside, one at a time (R6, R83, R238). -/
inductive Event where
  /-- The host writes `value` at BLK offset `offset` with an access of `width` bits (R71, R72). -/
  | write (width offset : Nat) (value : Word)
  /-- The host reads BLK offset `offset` with an access of `width` bits (R71, R73). -/
  | read (width offset : Nat)
  /-- The host itself writes an engine register, as its boot duty may ask (R264 step 1, R272). -/
  | bmWrite (r : BmReg) (v : Word)
  /-- The host itself reads an engine register (R264 step 1). -/
  | bmRead (r : BmReg)
  /-- The engine's step DONE(e) (R215). -/
  | done (e : Bool)
deriving DecidableEq, Repr

/-- The task-file image, nine registers (R30). -/
structure TaskFile where
  data     : Half
  devCtl   : Byte
  features : Byte
  secCount : Byte
  secNum   : Byte
  cylLo    : Byte
  cylHi    : Byte
  devHead  : Byte
  command  : Byte
deriving DecidableEq, Repr

/-- The extended LBA image, seven registers (R35). -/
structure ExtLba where
  lbaLow16   : Half
  lbaMid16   : Half
  lbaHigh16  : Half
  secCount16 : Half
  features16 : Half
  device     : Byte
  command    : Byte
deriving DecidableEq, Repr

/-- The state of the engine agent: CMD, ACTIVE, ERR, INT, PRDTP (R215). -/
structure Engine where
  cmd    : Byte
  active : Bool
  err    : Bool
  int    : Bool
  prdtp  : Word
deriving DecidableEq, Repr

/-- Storage as a list of (offset, byte) pairs. An offset that is not listed holds NO value: nothing
has written it since power-on (R48, log entry 2). -/
abbrev Memory := List Host.Cell

/-- The one canonical form: offsets strictly rising, all inside the 512 bytes of the PRD table
storage (R38). A listed offset holds a byte and an unlisted one none, so no entry equals what an
unlisted offset reads as. -/
def Memory.wf (m : Memory) : Bool :=
  decide (m.Pairwise (fun a b => a.1 < b.1)) && m.all (fun c => decide (c.1 < prdTableBytes))

/-- The machine: the block's registers and its PRD table (R20 to R42), the engine agent (R43), and
the model's own fields, marked so. -/
structure State where
  /-- OPR (R23). -/
  opr : Word
  /-- OPSTAT.CODE (R24). -/
  opstat : Byte
  /-- ARG0 (R25). -/
  arg0 : Word
  /-- ARG1 (R25). -/
  arg1 : Word
  /-- ARG2 (R25). -/
  arg2 : Word
  /-- RES0 (R26). -/
  res0 : Word
  /-- RES1 (R26). -/
  res1 : Word
  /-- DMASTATE.STATE (R27, R40). -/
  dma : DmaState
  /-- DMASTATE.LASTSTOP (R27, R41); its code 0 says that no effective stop has happened. -/
  lastStop : DmaState
  /-- DMASTATE.PRDCOUNT (R27, R42). -/
  prdCount : Byte
  /-- PRDBASE, its bits [1:0] hardwired 0 (R28). -/
  prdBase : Word
  /-- CMD_FLAGS: READ is bit 0, BUFVALID bit 1 (R29). -/
  cmdFlags : BitVec 2
  /-- CMD_POSITION (R32). -/
  cmdPosition : Word
  /-- CMD_BYTECOUNT (R33). -/
  cmdByteCount : Word
  /-- CMD_ACTUAL (R34). -/
  cmdActual : Word
  /-- TF_* (R30). -/
  tf : TaskFile
  /-- XL_* (R35). -/
  xl : ExtLba
  /-- The PRD table storage (R38). -/
  table : Memory
  /-- The bus-master engine, an agent of its own (R43, R215). -/
  engine : Engine
  /-- MODEL: what reaches the machine next, first first (R6, R83). -/
  events : List Event
  /-- MODEL: the segment provider's next answers, first first; beyond the end of the list an answer
  is the free value `Config.segAnswer` (R162). -/
  segAnswers : List SegAnswer
  /-- MODEL: how many free values have been drawn (log entries 5 and 7). -/
  draws : Nat
  /-- MODEL: the block's accesses to the engine's registers so far, in order (R13, R81). -/
  bmTrace : List BmAccess
  /-- MODEL: the builder's segment queries so far, in order (R162). -/
  segTrace : List SegQuery
  /-- MODEL: the values the host's reads returned so far, in order (R73). -/
  readLog : List Word
  /-- MODEL: how often the ATA device has raised its interrupt to the host (R215, R236,
  log entry 13). -/
  deviceIrqs : Nat
deriving DecidableEq, Repr

/-- Why the machine stops with a fault. -/
inductive Fault where
  /-- Raised by a host access at an offset outside the 1024 bytes of the BLK space: the spec gives
  that address no place in the block (R20, log entry 11). Safe: nothing is claimed of what follows. -/
  | outsideBlkSpace
deriving DecidableEq, Repr

/-- Why the model has no step. -/
inductive Refusal where
  /-- Raised by `exec` for an instruction without a meaning; no arm does. Safe. -/
  | notModelled (mnemonic : String)
  /-- Raised by a host access that is not 32 bits wide: "a model refuses it" (R71, U6). Safe. -/
  | accessWidth
  /-- Raised by a host access at an offset that is no multiple of 4: "a model refuses it"
  (R71, U6). Safe. -/
  | accessUnaligned
  /-- Raised by STARTDMA when a segment answer breaks the provider's duties: the model "has no step
  for an answer that breaks these duties" (R162, U3). The spec calls it an error toward proving, so
  UNSAFE: log entry 6. -/
  | providerDuty
  /-- Raised by a DONE event while the engine's step DONE is not enabled: it "cannot occur"
  (R215, R238, log entry 12). Safe. -/
  | doneNotEnabled
  /-- Raised by a host write of an engine register while the block holds a program, which the host
  must not do (R272, U11). Safe. -/
  | hostWritesEngine
  /-- Raised by a host write that would start the engine, which only STARTDMA may do (R272, U11).
  Safe. -/
  | hostStartsEngine
deriving DecidableEq, Repr

/-- An engine that is halted and whose status is clean, as the host's boot duty leaves it
(R264 step 1). -/
def Engine.haltedClean : Engine := { cmd := 0, active := false, err := false, int := false, prdtp := 0 }

/-- The task-file image after reset (R47). -/
def TaskFile.zero : TaskFile :=
  { data := 0, devCtl := 0, features := 0, secCount := 0, secNum := 0, cylLo := 0, cylHi := 0,
    devHead := 0, command := 0 }

/-- The extended LBA image after reset (R47, R263). -/
def ExtLba.zero : ExtLba :=
  { lbaLow16 := 0, lbaMid16 := 0, lbaHigh16 := 0, secCount16 := 0, features16 := 0, device := 0,
    command := 0 }

/-- The machine after power-on reset beside an engine in any state: every block register at the
value of R47, nothing listed in the PRD table, and the engine as it is, since the block does not
reset it (R48, R260, U2). Power-on is a state and not an event: log entry 18. -/
def State.powerOn (e : Engine) : State :=
  { opr := 0, opstat := 0, arg0 := 0, arg1 := 0, arg2 := 0, res0 := 0, res1 := 0,
    dma := .inactive, lastStop := .inactive, prdCount := 0, prdBase := 0,
    cmdFlags := 0, cmdPosition := 0, cmdByteCount := 0, cmdActual := 0,
    tf := TaskFile.zero, xl := ExtLba.zero, table := [], engine := e,
    events := [], segAnswers := [], draws := 0,
    bmTrace := [], segTrace := [], readLog := [], deviceIrqs := 0 }

/-- The machine right after reset (R47, R260). The engine's registers, to which the spec gives no
reset value, are 0: log entry 3, DESIGN CHOICE. The model's own fields start empty: log entry 4. -/
def State.reset : State := State.powerOn Engine.haltedClean

end Sys2Proof.Machine
end

