-- ==== Sys2Proof/Machine/Flags.lean ====
section
/-! DEFINITION. The status indicators (R46): the result codes of OPSTAT (R231), the fields of DMASTATE (R27), the
bits of the engine's registers (R200) and the flags word of a PRD entry (R39). The block has no
condition codes. -/

namespace Sys2Proof.Machine

/-- The result codes of R231. -/
inductive ResultCode where
  | ok | errRange | errNullBuffer | errTableExhausted | errBadOpcode | intNotArmed
deriving DecidableEq, Repr

/-- OPSTAT.CODE of a result code (R231). -/
def ResultCode.code : ResultCode → Byte
  | .ok => 0x00
  | .errRange => 0x01
  | .errNullBuffer => 0x02
  | .errTableExhausted => 0x03
  | .errBadOpcode => 0x04
  | .intNotArmed => 0x05

/-- The code of a DMA state in DMASTATE (R27). -/
def DmaState.code : DmaState → BitVec 3
  | .inactive => 0
  | .starting => 1
  | .status => 2
  | .complete => 3
  | .error => 4

/-- The word a read of DMASTATE returns: STATE [2:0], LASTSTOP [6:4], PRDCOUNT [15:8], every other
bit 0 (R27). -/
def dmaStateWord (st last : DmaState) (count : Byte) : Word :=
  (0#16 ++ count ++ 0#1 ++ last.code ++ 0#1 ++ st.code : BitVec (16 + 8 + 1 + 3 + 1 + 3))

/-- The value `stop_core` writes to BM_STATUS: ERR (bit 1) and INT (bit 2), write one to clear
(R202). -/
def bmStatusClear : Word := 0x06

/-- The value `stop_core` writes to BM_CMD: START and RW 0 (R202). -/
def bmCmdHalt : Word := 0x00

/-- The start command: `0x01 | (CMD_FLAGS.READ << 3)` (R204, R206). -/
def bmCmdStart (read : Bool) : Word := if read then 0x09 else 0x01

/-- The EOT bit of the flags word of a PRD entry, bit 15 (R39). -/
def eotFlag : Nat := 0x8000

/-- The flags word EMIT writes: EOT or continue (R160). -/
def prdFlags (last : Bool) : Nat := if last then eotFlag else 0x0000

/-- A PRD entry carries EOT (R39). -/
def entryEot (e : PrdEntry) : Bool := e.flags.getLsbD 15

/-- The device byte of the task-file and extended images: bit 6 the LBA mode and the unit shifted to
bit 4, as `0x40 | (unit << 4)` truncated to 8 bits (R132, R133). -/
def deviceByte (unit : BitVec 4) : Byte := 0x40 ||| (unit.zeroExtend 8 <<< 4)

end Sys2Proof.Machine
end

