-- ==== Sys2Proof/Machine/Operands.lean ====
section
/-! DEFINITION. Operand assembly from the operand registers and the command transfer fields (R103), and the byte
pairs of the extended LBA registers (R36). -/

namespace Sys2Proof.Machine

/-- `lba` of SETLBA28: ARG0, all 32 bits (R103). -/
def lbaOperand (s : State) : Word := s.arg0

/-- `lbaLo` of SETXLBA: ARG0, all 32 bits (R103). -/
def lbaLoOperand (s : State) : Word := s.arg0

/-- `lbaHi` of SETXLBA: ARG1[15:0] (R103). -/
def lbaHiOperand (s : State) : Half := s.arg1.extractLsb' 0 16

/-- `count` of SETXLBA: ARG2[15:0] (R103). -/
def countOperand (s : State) : Half := s.arg2.extractLsb' 0 16

/-- The direction of STARTDMA: CMD_FLAGS.READ, 1 = device to memory (R29, R103). -/
def readDirection (s : State) : Bool := s.cmdFlags.getLsbD 0

/-- The buffer presence of STARTDMA: CMD_FLAGS.BUFVALID (R29, R103). -/
def bufferValid (s : State) : Bool := s.cmdFlags.getLsbD 1

/-- The byte of a 16-bit extended field that occupies the legacy register, bits [7:0] (R36). -/
def lowByte (h : Half) : Byte := h.extractLsb' 0 8

/-- The HOB byte of a 16-bit extended field, bits [15:8] (R36). -/
def hobByte (h : Half) : Byte := h.extractLsb' 8 8

/-- Byte `k` of a 32-bit value, byte 0 = bits [7:0]. -/
def wordByte (w : Word) (k : Nat) : Byte := w.extractLsb' (8 * k) 8

/-- A 16-bit extended field from its HOB byte and its legacy byte (R36). -/
def bytePair (hob low : Byte) : Half := hob ++ low

end Sys2Proof.Machine
end

