-- ==== Sys2Proof/Machine/Ops.lean ====
section
/-! DEFINITION. The named operations: completion (spec/00_scope.md R12), the PRD table storage (R11, R48), the
bus-master engine's registers (R200, R215), the segment provider (R162) and `stop_core` (R202). The
block has no traps: every error is a `finish` with a non-zero code (R230, R239). -/

namespace Sys2Proof.Machine

/-- `finish(code)`: OPSTAT.CODE takes the code and the operation ends (R12, R24). It is also all that
reporting an error does: nothing is saved and no vector is taken (R239). -/
def finish (c : ResultCode) (s : State) : State := { s with opstat := c.code }

/-- The byte an offset of the storage holds, if anything has written it. -/
def memGet? : Memory → Nat → Option Byte
  | [], _ => none
  | (x, v) :: m, a => if a = x then some v else memGet? m a

/-- The byte a read of an offset gives; at an offset nothing has written since power-on it is the
free value `Config.prdPowerOn` (R48, U1). -/
def memByte (m : Memory) (a : Nat) : Byte := (memGet? m a).getD (Config.prdPowerOn a)

/-- Store one byte, keeping the offsets strictly rising. -/
def memSet : Memory → Nat → Byte → Memory
  | [], a, b => [(a, b)]
  | (x, v) :: m, a, b =>
    if a < x then (a, b) :: (x, v) :: m
    else if a = x then (a, b) :: m
    else (x, v) :: memSet m a b

/-- `MemRead(a, n)`: the n bytes at offsets a..a+n-1, byte a in bits 7:0 (R11). -/
def memRead (m : Memory) (a : Nat) : Nat → Nat
  | 0 => 0
  | n + 1 => (memByte m a).toNat + 256 * memRead m (a + 1) n

/-- `MemWrite(a, n, v)`: store `trunc_(8n)(v)` at offsets a..a+n-1, bits 7:0 at offset a (R11). -/
def memWrite (m : Memory) (a : Nat) : Nat → Nat → Memory
  | 0, _ => m
  | n + 1, v => memWrite (memSet m a (BitVec.ofNat 8 v)) (a + 1) n (v / 256)

/-- What a write of an engine register does to the engine (R215): a START written 1 over 0 makes it
active, a START written 0 halts it; ERR and INT are write-one-to-clear; the table base keeps bits
[31:2]. Registers of 8 bits take the low 8 bits of the value. -/
def engineWrite (r : BmReg) (v : Word) (e : Engine) : Engine :=
  match r with
  | .cmd =>
    { e with
      active := if v.getLsbD 0 then (if e.cmd.getLsbD 0 then e.active else true) else false
      cmd := v.extractLsb' 0 8 }
  | .status =>
    { e with
      err := if v.getLsbD 1 then false else e.err
      int := if v.getLsbD 2 then false else e.int }
  | .prdtp => { e with prdtp := v &&& 0xFFFFFFFC#32 }

/-- BM_STATUS as one read returns it, bit by bit: ACTIVE, ERR, INT and the free bits 7:3 (R200, R215). -/
structure BmStatus where
  active : Bool
  err    : Bool
  int    : Bool
  high   : BitVec 5
deriving DecidableEq, Repr

/-- BM_STATUS as a byte: `ACTIVE | ERR << 1 | INT << 2`, bits 7:3 free (R215). -/
def bmStatusByte (b : BmStatus) : Byte :=
  (b.high ++ BitVec.ofBool b.int ++ BitVec.ofBool b.err ++ BitVec.ofBool b.active : BitVec (5 + 1 + 1 + 1))

/-- The answer the engine gives to a read of BM_STATUS at this state (R215, U9). -/
def bmStatusNow (s : State) : BmStatus :=
  { active := s.engine.active, err := s.engine.err, int := s.engine.int,
    high := Config.bmStatusHigh s.draws }

/-- The value a read of an engine register gives (R11, R215). -/
def bmRegValue (r : BmReg) (s : State) : Word :=
  match r with
  | .cmd => s.engine.cmd.zeroExtend 32
  | .status => (bmStatusByte (bmStatusNow s)).zeroExtend 32
  | .prdtp => s.engine.prdtp

/-- `BMWrite(r, v)` by the block (R11, R200). -/
def bmWrite (r : BmReg) (v : Word) (s : State) : State :=
  { s with engine := engineWrite r v s.engine, bmTrace := s.bmTrace ++ [.write r v] }

/-- The state after `BMRead(BM_STATUS)` by the block: only the model's record and its count of draws
move, since the read has no side effect (R82). The value read is `bmStatusNow`. -/
def afterStatusRead (s : State) : State :=
  { s with bmTrace := s.bmTrace ++ [.read .status], draws := s.draws + 1 }

/-- `SegQuery(pos, rem)`: the provider's answer (R162). -/
def segAnswer (pos rem : Nat) (s : State) : SegAnswer :=
  match s.segAnswers with
  | a :: _ => a
  | [] => Config.segAnswer s.draws pos rem

/-- The state after `SegQuery(pos, rem)`: only the model's record of the provider moves (R162, R176). -/
def afterSegQuery (pos rem : Nat) (s : State) : State :=
  { s with
    segAnswers := s.segAnswers.tail
    draws := if s.segAnswers = [] then s.draws + 1 else s.draws
    segTrace := s.segTrace ++ [⟨pos, rem⟩] }

/-- `stop_core()`: a state other than Inactive first clears ERR and INT, then halts the engine, and is
kept in LASTSTOP (R202). -/
def stopCore (s : State) : State :=
  if s.dma = .inactive then s
  else
    let halted := bmWrite .cmd bmCmdHalt (bmWrite .status bmStatusClear s)
    { halted with lastStop := s.dma, dma := .inactive }

end Sys2Proof.Machine
end

