-- ==== Sys2Proof/WellFormed.lean ====
section
/-! DEFINITION. The well-formedness checks: a host access (R71), an assembly line (R110) and a segment
answer (R162). An `Instr` needs none, since its operands stand at the widths of their fields. -/

namespace Sys2Proof

/-- A host access is 32 bits wide and at a multiple of 4 (R71). -/
def accessWellFormed (width offset : Nat) : Bool := width == 32 && offset % 4 == 0

/-- A register written as an offset names a word of the 1024-byte BLK space (R20, R110). -/
def RegRef.wellFormed : RegRef → Bool
  | .named _ => true
  | .offset o => o % 4 == 0 && decide (o < 0x400)

/-- `<unit>` is 0..15, `<xcmd>` 0..255 and every `<value>` is a 32-bit value (R110, R111). -/
def AsmLine.wellFormed : AsmLine → Bool
  | .wr r v => r.wellFormed && decide (v < 2 ^ 32)
  | .rd r => r.wellFormed
  | .nop | .cmdreset | .getxlba | .xzero | .startdma | .stopdma | .onint | .xlbard => true
  | .setlba28 u => decide (u < 16)
  | .setxlba u x => decide (u < 16) && decide (x < 256)
  | .lba28 u lba => decide (u < 16) && decide (lba < 2 ^ 32)
  | .lba48 u hi lo cnt xc =>
      decide (u < 16) && decide (hi < 2 ^ 32) && decide (lo < 2 ^ 32) && decide (cnt < 2 ^ 32) && decide (xc < 256)
  | .xfer f p l => decide (f < 2 ^ 32) && decide (p < 2 ^ 32) && decide (l < 2 ^ 32)

/-- The provider's duties for a `Some` answer to SegQuery(pos, rem): 1 <= len <= rem and
addr + len <= 2^32 (R162, D14). -/
def Segment.meetsDuty (g : Segment) (rem : Nat) : Bool :=
  decide (1 ≤ g.len) && decide (g.len ≤ rem) && decide (g.addr + g.len ≤ 2 ^ 32)

end Sys2Proof
end

