-- ==== Sys2Proof/Machine/Builder.lean ====
section
/-! DEFINITION. The PRD chain builder, which runs inside STARTDMA (spec/42_prd_builder.md). All its arithmetic is
exact (R163, D15). Where the loops are said otherwise than R163 says them: log entry 21. -/

namespace Sys2Proof.Machine

/-- Write one 8-byte entry at entry offset 8i: bufferPtr, byteCount, flags, each little-endian
(R39, R160). -/
def writeEntry (i addr len flags : Nat) (m : Memory) : Memory :=
  memWrite (memWrite (memWrite m (8 * i) 4 addr) (8 * i + 4) 2 len) (8 * i + 6) 2 flags

/-- PRD entry i as the storage holds it (R39, R76). -/
def entryAt (m : Memory) (i : Nat) : PrdEntry :=
  { bufferPtr := BitVec.ofNat 32 (memRead m (8 * i) 4)
    byteCount := BitVec.ofNat 16 (memRead m (8 * i + 4) 2)
    flags := BitVec.ofNat 16 (memRead m (8 * i + 6) 2) }

/-- EMIT(i, addr, len, last): write entry i and count it (R160). -/
def emit (i addr len : Nat) (last : Bool) (s : State) : State :=
  { s with table := writeEntry i addr len (prdFlags last) s.table, prdCount := BitVec.ofNat 8 (i + 1) }

/-- The stop entries 0..n-1: address 0, count 0, EOT (R161, D12). The highest is written first, which
keeps the list short to walk; the writes are disjoint and nothing sees their order (R80). -/
def stopEntries : Nat → Memory → Memory
  | 0, m => m
  | n + 1, m => stopEntries n (writeEntry n 0 0 eotFlag m)

/-- Table reinitialisation: 64 stop entries, and no entry emitted (R161). -/
def reinitTable (s : State) : State := { s with table := stopEntries prdMax s.table, prdCount := 0 }

/-- The next 64KB boundary above an address (R163, R165). -/
def boundaryAbove (p : Nat) : Nat := p / block64K * block64K + block64K

/-- What emitting one segment ends in. -/
inductive SegmentResult where
  /-- Every piece is written and `slots` slots are left. -/
  | written (slots : Nat) (s : State)
  /-- A piece found no slot (R167). -/
  | noSlot (s : State)
deriving DecidableEq, Repr

/-- Emit the pieces of the segment of `cnt >= 1` bytes at `p` (the inner loop of R163). The number of
slots left is 64 minus the slot index, so a piece that meets 0 of them meets idx >= 64 (R167). A piece
that extends past the boundary is marked continue (R165); the final piece is marked EOT exactly when
no byte remains after this segment (R166). -/
def emitSegment (lastSegment : Bool) : Nat → Nat → Nat → State → SegmentResult
  | 0, _, _, s => .noSlot s
  | slots + 1, p, cnt, s =>
    if boundaryAbove p < p + cnt then
      emitSegment lastSegment slots (boundaryAbove p) (cnt - (boundaryAbove p - p))
        (emit (prdMax - (slots + 1)) p (boundaryAbove p - p) false s)
    else .written slots (emit (prdMax - (slots + 1)) p cnt lastSegment s)

/-- What BUILD ends in. -/
inductive BuildResult where
  /-- BUILD returns OK (R168). -/
  | built (s : State)
  /-- BUILD returns an error code (R164, R167). -/
  | failed (c : ResultCode) (s : State)
  /-- A segment answer broke the provider's duties: there is no step (R162, U3). -/
  | brokenDuty
deriving DecidableEq, Repr

/-- The outer loop of R163 from a slot count, a position and a remaining count. The first argument
bounds the queries that are left; it starts above the slot count and every answered segment takes a
slot (R175), so the loop never ends by it while a slot is left. -/
def buildLoop : Nat → Nat → Nat → Nat → State → BuildResult
  | 0, _, _, _, s => .failed .errTableExhausted { s with dma := .error }
  | fuel + 1, slots, pos, rem, s =>
    if rem = 0 then .built { s with dma := .status }
    else
      match segAnswer pos rem s with
      | none => .built { afterSegQuery pos rem s with dma := .status }
      | some g =>
        if g.meetsDuty rem then
          match emitSegment (rem - g.len == 0) slots g.addr g.len (afterSegQuery pos rem s) with
          | .noSlot s' => .failed .errTableExhausted { s' with dma := .error }
          | .written slots' s' => buildLoop fuel slots' (pos + g.len) (rem - g.len) s'
        else .brokenDuty

/-- BUILD() (R163): the null-buffer check (R164), then the loop. -/
def build (s : State) : BuildResult :=
  if bufferValid s then
    buildLoop (prdMax + 1) prdMax s.cmdPosition.toNat s.cmdByteCount.toNat s
  else .failed .errNullBuffer s

end Sys2Proof.Machine
end

