-- ==== Sys2Proof/Machine/Engine.lean ====
section
/-! DEFINITION. The bus-master engine as an agent (spec/43_dma_engine.md R215): its step DONE, the host's own
accesses to its registers (R264, R272), and the table it walks. Moving data is outside the model
(R5(d), R215, log entry 16). -/

namespace Sys2Proof.Machine

/-- The engine runs: its START bit and ACTIVE are 1. Only then does it read the PRD table (R83, R215). -/
def engineRunning (s : State) : Bool := s.engine.cmd.getLsbD 0 && s.engine.active

/-- The engine's step DONE can happen exactly while it runs (R215). -/
def doneEnabled (s : State) : Bool := engineRunning s

/-- DONE(e): the engine goes idle, INT is set, ERR is sticky, and the device raises its interrupt to
the host (R215, R236). -/
def engineDone (e : Bool) (s : State) : State :=
  { s with
    engine := { s.engine with active := false, int := true, err := s.engine.err || e }
    deviceIrqs := s.deviceIrqs + 1 }

/-- A DONE event; while DONE is not enabled it cannot occur (R238). -/
def doneEvent (e : Bool) (s : State) : Host.Outcome State Fault Refusal :=
  if doneEnabled s then .next (engineDone e s) else .refused .doneNotEnabled

/-- The host's own write of an engine register: its boot duty (R264 step 1), never while the block
holds a program and never a start (R272, U11). -/
def hostBmWrite (r : BmReg) (v : Word) (s : State) : Host.Outcome State Fault Refusal :=
  if s.dma = .status then .refused .hostWritesEngine
  else if r = .cmd && v.getLsbD 0 then .refused .hostStartsEngine
  else .next { s with engine := engineWrite r v s.engine }

/-- The host's own read of an engine register, without side effect (R82, R264 step 1); each read of
BM_STATUS draws its bits 7:3 anew (U9). -/
def hostBmRead (r : BmReg) (s : State) : Host.Outcome State Fault Refusal :=
  .next { s with readLog := s.readLog ++ [bmRegValue r s],
                 draws := if r = .status then s.draws + 1 else s.draws }

/-- The host's placement duty for the table base: dword aligned, below 2^32 and inside one 64KB block
(R79). -/
def placementMet (base : Word) : Bool :=
  decide (base.toNat % 4 = 0) && decide (base.toNat + 511 < 2 ^ 32) && decide (base.toNat % block64K ≤ 0xFE00)

/-- The entry a running engine reads as entry i: the block's table behind the engine's own base register,
or anything if that base breaks the placement duty (R38, R79, U5). Two points are the model's choice, which
the spec leaves open: that what stands behind a bad base is one function of base and index, the same at each
start (log entry 9), and that the table stands behind any base meeting the duty, also one that is not PRDBASE
(log entry 23). -/
def engineEntry (s : State) (i : Nat) : PrdEntry :=
  if placementMet s.engine.prdtp then entryAt s.table i else Config.strayEntry s.engine.prdtp i

/-- The entries up to and with the first that carries EOT (R215). -/
def throughEot : List PrdEntry → List PrdEntry
  | [] => []
  | e :: es => if entryEot e then [e] else e :: throughEot es

/-- The 64 entries the table has for the engine (R38, R79). -/
def engineTable (s : State) : List PrdEntry := (List.range prdMax).map (engineEntry s)

/-- The entries the engine walks, of the 64 the table has; none while it does not run (R83, R215). -/
def engineWalk (s : State) : List PrdEntry := if engineRunning s then throughEot (engineTable s) else []

/-- The running engine finds no EOT in the table and walks past entry 63, where what it reads is anything
(R83, R169, R268, U10). -/
def walkRunsPast (s : State) : Bool := engineRunning s && (engineTable s).all (fun e => !entryEot e)

/-- The bytes the engine moves for an entry; `none` is any number of them. A count of 0 is read as the
open parameter says (R171, D26). -/
def entryBytes (z : ZeroCount) (e : PrdEntry) : Option Nat :=
  if e.byteCount = 0 then
    match z with
    | .bytes65536 => some block64K
    | .undefined => none
  else some e.byteCount.toNat

/-- The data traffic of the program at the engine: each walked entry's address and bytes, under the
engine's own reading of a zero count, and whether memory is written (R200, R215, D26). -/
def engineTraffic (s : State) : List (Word × Option Nat × Bool) :=
  (engineWalk s).map (fun e => (e.bufferPtr, entryBytes Config.engineZeroCount e, s.engine.cmd.getLsbD 3))

end Sys2Proof.Machine
end

