-- ==== Sys2Proof/Decode.lean ====
section
/-! DEFINITION. The operation word: field extraction (spec/30_encoding.md R102), the opcode map (R104), decoding
by it, rejecting by name (R105, R106), and the encoder written from the same map. -/

namespace Sys2Proof

/-- The operation a row of the opcode map stands for. -/
inductive Opcode where
  | nop | cmdreset | setlba28 | setxlba | getxlba | xzero | startdma | stopdma | onint
deriving DecidableEq, Repr

/-- One row of the opcode map: a word w selects it when `(w & mask) == match` (R104). -/
structure OpcodeRow where
  op        : Opcode
  matchWord : Word
  mask      : Word
deriving DecidableEq, Repr

/-- Why a word is an illegal operation word (R106). -/
inductive DecodeError where
  /-- The OPC value is not in the table (R106, R107). -/
  | unassignedOpc
  /-- The OPC is listed, but a must-be-zero bit is set (R105). -/
  | mustBeZeroBitSet
deriving DecidableEq, Repr

/-- The opcode map of R104, row by row. -/
def opcodeTable : List OpcodeRow :=
  [ ⟨.nop,      0x00000000#32, 0xFFFFFFFF#32⟩,
    ⟨.cmdreset, 0x00000001#32, 0xFFFFFFFF#32⟩,
    ⟨.setlba28, 0x00000010#32, 0xFFFFF0FF#32⟩,
    ⟨.setxlba,  0x00000011#32, 0xFF00F0FF#32⟩,
    ⟨.getxlba,  0x00000012#32, 0xFFFFFFFF#32⟩,
    ⟨.xzero,    0x00000013#32, 0xFFFFFFFF#32⟩,
    ⟨.startdma, 0x00000020#32, 0xFFFFFFFF#32⟩,
    ⟨.stopdma,  0x00000021#32, 0xFFFFFFFF#32⟩,
    ⟨.onint,    0x00000022#32, 0xFFFFFFFF#32⟩ ]

/-- A word selects a row (R104). -/
def OpcodeRow.selects (r : OpcodeRow) (w : Word) : Bool := w &&& r.mask == r.matchWord

/-- OPC = w[7:0] (R102). -/
def opcField (w : Word) : Byte := w.extractLsb' 0 8

/-- UNIT = w[11:8] (R102). -/
def unitField (w : Word) : BitVec 4 := w.extractLsb' 8 4

/-- XCMD = w[23:16] (R102). -/
def xcmdField (w : Word) : Byte := w.extractLsb' 16 8

/-- The instruction a row's operation stands for, with the fields of the word (R102, R104). -/
def Instr.ofWord (op : Opcode) (w : Word) : Instr :=
  match op with
  | .nop => .nop
  | .cmdreset => .cmdreset
  | .setlba28 => .setlba28 (unitField w)
  | .setxlba => .setxlba (unitField w) (xcmdField w)
  | .getxlba => .getxlba
  | .xzero => .xzero
  | .startdma => .startdma
  | .stopdma => .stopdma
  | .onint => .onint

/-- Decoding by the opcode map alone, in every DMA state (R104, R106, R108). -/
def decode (w : Word) : Except DecodeError Instr :=
  match opcodeTable.find? (fun r => r.selects w) with
  | some r => .ok (Instr.ofWord r.op w)
  | none =>
    if opcodeTable.any (fun r => opcField r.matchWord == opcField w) then .error .mustBeZeroBitSet
    else .error .unassignedOpc

/-- The operation word of the fields XCMD, UNIT and OPC, every other bit 0 (R101). -/
def opWord (xcmd : Byte) (unit : BitVec 4) (opc : Byte) : Word :=
  (0#8 ++ xcmd ++ 0#4 ++ unit ++ opc : BitVec (8 + 8 + 4 + 4 + 8))

/-- The operation word of an instruction (R101, R104, R110). -/
def encode : Instr → Word
  | .nop => opWord 0 0 0x00
  | .cmdreset => opWord 0 0 0x01
  | .setlba28 u => opWord 0 u 0x10
  | .setxlba u x => opWord x u 0x11
  | .getxlba => opWord 0 0 0x12
  | .xzero => opWord 0 0 0x13
  | .startdma => opWord 0 0 0x20
  | .stopdma => opWord 0 0 0x21
  | .onint => opWord 0 0 0x22

/-- The row of the opcode map an instruction belongs to (R104). -/
def Instr.opcode : Instr → Opcode
  | .nop => .nop
  | .cmdreset => .cmdreset
  | .setlba28 _ => .setlba28
  | .setxlba _ _ => .setxlba
  | .getxlba => .getxlba
  | .xzero => .xzero
  | .startdma => .startdma
  | .stopdma => .stopdma
  | .onint => .onint

/-- The instruction the decoder reads from an instruction whose bits are `w`, `nbits` of them, every
higher bit 0. An operation word is one value of 32 bits, so no byte order applies (R75, R101). -/
def decodeTableWord (nbits w : Nat) : Option Instr :=
  match decode (BitVec.ofNat 32 (w % 2 ^ nbits)) with
  | .ok i => some i
  | .error _ => none

end Sys2Proof
end

