-- ==== Sys2Proof/Machine/Encoder.lean ====
section
/-! DEFINITION. The meanings of the LBA encoder operations (spec/41_lba_encoder.md), each legal in every DMA state
and touching block registers only. -/

namespace Sys2Proof.Machine

/-- NOP (R130). -/
def execNop (s : State) : Host.Outcome State Fault Refusal := .next (finish .ok s)

/-- CMDRESET: the task-file image, the extended LBA image and the command transfer fields become 0
(R131, D20). -/
def execCmdreset (s : State) : Host.Outcome State Fault Refusal :=
  .next (finish .ok
    { s with tf := TaskFile.zero, xl := ExtLba.zero,
             cmdFlags := 0, cmdPosition := 0, cmdByteCount := 0, cmdActual := 0 })

/-- The operands SETLBA28 refuses: an LBA of more than 28 bits or a unit other than 0 and 1 (R132). -/
def lba28OutOfRange (lba : Word) (unit : BitVec 4) : Bool :=
  lba.extractLsb' 28 4 != 0 || decide (1 < unit.toNat)

/-- The task-file image SETLBA28 leaves (R132, R112). -/
def lba28Pack (lba : Word) (unit : BitVec 4) (tf : TaskFile) : TaskFile :=
  { tf with
    secNum := wordByte lba 0
    cylLo := wordByte lba 1
    cylHi := wordByte lba 2
    devHead := (lba.extractLsb' 24 4).zeroExtend 8 ||| deviceByte unit }

/-- SETLBA28 unit: the range check first, then the four registers (R132, R232). -/
def execSetlba28 (unit : BitVec 4) (s : State) : Host.Outcome State Fault Refusal :=
  if lba28OutOfRange (lbaOperand s) unit then .next (finish .errRange s)
  else .next (finish .ok { s with tf := lba28Pack (lbaOperand s) unit s.tf })

/-- The extended LBA image SETXLBA leaves; XL_FEATURES16 keeps its value (R133, D9). -/
def xlbaPack (lo : Word) (hi count : Half) (unit : BitVec 4) (xcmd : Byte) (xl : ExtLba) : ExtLba :=
  { xl with
    lbaLow16 := bytePair (wordByte lo 3) (wordByte lo 0)
    lbaMid16 := bytePair (lowByte hi) (wordByte lo 1)
    lbaHigh16 := bytePair (hobByte hi) (wordByte lo 2)
    secCount16 := count
    command := xcmd
    device := deviceByte unit }

/-- SETXLBA unit, xcmd: no check and no error (R133). -/
def execSetxlba (unit : BitVec 4) (xcmd : Byte) (s : State) : Host.Outcome State Fault Refusal :=
  .next (finish .ok
    { s with xl := xlbaPack (lbaLoOperand s) (lbaHiOperand s) (countOperand s) unit xcmd s.xl })

/-- RES0 of GETXLBA: the low 32 LBA bits (R134). -/
def xlbaLow (xl : ExtLba) : Word :=
  (hobByte xl.lbaLow16 ++ lowByte xl.lbaHigh16 ++ lowByte xl.lbaMid16 ++ lowByte xl.lbaLow16 :
    BitVec (8 + 8 + 8 + 8))

/-- RES1 of GETXLBA: the high 16 LBA bits, bits [31:16] 0 (R134). -/
def xlbaHigh (xl : ExtLba) : Word :=
  (0#16 ++ hobByte xl.lbaHigh16 ++ hobByte xl.lbaMid16 : BitVec (16 + 8 + 8))

/-- GETXLBA (R134). -/
def execGetxlba (s : State) : Host.Outcome State Fault Refusal :=
  .next (finish .ok { s with res0 := xlbaLow s.xl, res1 := xlbaHigh s.xl })

/-- XZERO (R135). -/
def execXzero (s : State) : Host.Outcome State Fault Refusal :=
  .next (finish .ok { s with xl := ExtLba.zero })

end Sys2Proof.Machine
end

