-- ==== Sys2Proof/Machine/Sequencer.lean ====
section
/-! DEFINITION. The meanings of the DMA sequencer operations (spec/43_dma_engine.md). -/

namespace Sys2Proof.Machine

/-- STOPDMA: safe from any state (R203). -/
def execStopdma (s : State) : Host.Outcome State Fault Refusal := .next (finish .ok (stopCore s))

/-- The state BUILD starts from: any prior program stopped, STATE Starting, the table all stop
entries (R204, R161). -/
def armed (s : State) : State := reinitTable { stopCore s with dma := .starting }

/-- Program the engine after a successful build: the table base first, then the start command
(R204, R206). That the order against the table's writes is not recorded: log entry 17. -/
def startEngine (s : State) : State :=
  bmWrite .cmd (bmCmdStart (readDirection s)) (bmWrite .prdtp s.prdBase s)

/-- STARTDMA (R204); after a failed build the engine is stopped and the builder's code reported
(R207). -/
def execStartdma (s : State) : Host.Outcome State Fault Refusal :=
  match build (armed s) with
  | .built s' => .next (finish .ok (startEngine s'))
  | .failed c s' => .next (finish c (stopCore s'))
  | .brokenDuty => .refused .providerDuty

/-- What ONINT makes of the status it read: Error, or the byte count recorded and Complete (R205). -/
def settleProgram (b : BmStatus) (s : State) : State :=
  if b.err then { s with dma := .error }
  else { s with cmdActual := s.cmdByteCount, dma := .complete }

/-- ONINT: acts in Status alone, on the error bit alone (R205, R209, R216). -/
def execOnint (s : State) : Host.Outcome State Fault Refusal :=
  if s.dma = .status then
    .next (finish .ok (stopCore (settleProgram (bmStatusNow s) (afterStatusRead s))))
  else .next (finish .intNotArmed s)

end Sys2Proof.Machine
end

