-- ==== Sys2Proof/Machine/Dispatch.lean ====
section
/-! DEFINITION. One arm per instruction (spec/opcode_table.json). -/

namespace Sys2Proof.Machine

/-- The operation an instruction performs (R100, R104). -/
def exec (i : Instr) (s : State) : Host.Outcome State Fault Refusal :=
  match i with
  | .nop => Sys2Proof.Machine.execNop s
  | .cmdreset => Sys2Proof.Machine.execCmdreset s
  | .setlba28 unit => Sys2Proof.Machine.execSetlba28 unit s
  | .setxlba unit xcmd => Sys2Proof.Machine.execSetxlba unit xcmd s
  | .getxlba => Sys2Proof.Machine.execGetxlba s
  | .xzero => Sys2Proof.Machine.execXzero s
  | .startdma => Sys2Proof.Machine.execStartdma s
  | .stopdma => Sys2Proof.Machine.execStopdma s
  | .onint => Sys2Proof.Machine.execOnint s

end Sys2Proof.Machine
end

