-- ==== Sys2Proof/Machine/HostPort.lean ====
section
/-! DEFINITION. The host's register port: the map of the BLK space (spec/10_state.md R20), host reads and writes
(spec/20_memory.md R71 to R73) and the issue of an operation (R100). -/

namespace Sys2Proof.Machine

/-- The BLK space is 1024 bytes (R20). -/
def blkBytes : Nat := 0x400

/-- Where the PRD window starts (R20). -/
def prdWindow : Nat := 0x200

/-- The offset of a register in the BLK space (R20). -/
def regOffset : Reg → Nat
  | .opr => 0x000 | .opstat => 0x004 | .arg0 => 0x008 | .arg1 => 0x00C | .arg2 => 0x010
  | .res0 => 0x014 | .res1 => 0x018 | .dmastate => 0x01C | .prdbase => 0x020
  | .cmdFlags => 0x024 | .cmdPosition => 0x028 | .cmdByteCount => 0x02C | .cmdActual => 0x030
  | .tfData => 0x040 | .tfDevCtl => 0x044 | .tfFeatures => 0x048 | .tfSecCount => 0x04C
  | .tfSecNum => 0x050 | .tfCylLo => 0x054 | .tfCylHi => 0x058 | .tfDevHead => 0x05C
  | .tfCommand => 0x060
  | .xlLbaLow16 => 0x080 | .xlLbaMid16 => 0x084 | .xlLbaHigh16 => 0x088 | .xlSecCount16 => 0x08C
  | .xlFeatures16 => 0x090 | .xlDevice => 0x094 | .xlCommand => 0x098

/-- Every register of the map, in its order (R20). -/
def allRegs : List Reg :=
  [.opr, .opstat, .arg0, .arg1, .arg2, .res0, .res1, .dmastate, .prdbase,
   .cmdFlags, .cmdPosition, .cmdByteCount, .cmdActual,
   .tfData, .tfDevCtl, .tfFeatures, .tfSecCount, .tfSecNum, .tfCylLo, .tfCylHi, .tfDevHead, .tfCommand,
   .xlLbaLow16, .xlLbaMid16, .xlLbaHigh16, .xlSecCount16, .xlFeatures16, .xlDevice, .xlCommand]

/-- The register at an offset; an unassigned offset and the PRD window have none (R20, R44). -/
def regAt (o : Nat) : Option Reg := allRegs.find? (fun r => regOffset r == o)

/-- The value a host read of a register returns, zero-extended to 32 bits (R20, R73). -/
def regRead (r : Reg) (s : State) : Word :=
  match r with
  | .opr => s.opr
  | .opstat => s.opstat.zeroExtend 32
  | .arg0 => s.arg0
  | .arg1 => s.arg1
  | .arg2 => s.arg2
  | .res0 => s.res0
  | .res1 => s.res1
  | .dmastate => dmaStateWord s.dma s.lastStop s.prdCount
  | .prdbase => s.prdBase
  | .cmdFlags => s.cmdFlags.zeroExtend 32
  | .cmdPosition => s.cmdPosition
  | .cmdByteCount => s.cmdByteCount
  | .cmdActual => s.cmdActual
  | .tfData => s.tf.data.zeroExtend 32
  | .tfDevCtl => s.tf.devCtl.zeroExtend 32
  | .tfFeatures => s.tf.features.zeroExtend 32
  | .tfSecCount => s.tf.secCount.zeroExtend 32
  | .tfSecNum => s.tf.secNum.zeroExtend 32
  | .tfCylLo => s.tf.cylLo.zeroExtend 32
  | .tfCylHi => s.tf.cylHi.zeroExtend 32
  | .tfDevHead => s.tf.devHead.zeroExtend 32
  | .tfCommand => s.tf.command.zeroExtend 32
  | .xlLbaLow16 => s.xl.lbaLow16.zeroExtend 32
  | .xlLbaMid16 => s.xl.lbaMid16.zeroExtend 32
  | .xlLbaHigh16 => s.xl.lbaHigh16.zeroExtend 32
  | .xlSecCount16 => s.xl.secCount16.zeroExtend 32
  | .xlFeatures16 => s.xl.features16.zeroExtend 32
  | .xlDevice => s.xl.device.zeroExtend 32
  | .xlCommand => s.xl.command.zeroExtend 32

/-- A host write of a register other than OPR: a read/write register takes the value truncated to its
width, PRDBASE with bits [1:0] forced to 0; a read-only register ignores it (R28, R44, R72). The write
of OPR is `issue`. -/
def regWrite (r : Reg) (v : Word) (s : State) : State :=
  match r with
  | .opr | .opstat | .res0 | .res1 | .dmastate | .cmdActual => s
  | .arg0 => { s with arg0 := v }
  | .arg1 => { s with arg1 := v }
  | .arg2 => { s with arg2 := v }
  | .prdbase => { s with prdBase := v &&& 0xFFFFFFFC#32 }
  | .cmdFlags => { s with cmdFlags := v.extractLsb' 0 2 }
  | .cmdPosition => { s with cmdPosition := v }
  | .cmdByteCount => { s with cmdByteCount := v }
  | .tfData => { s with tf := { s.tf with data := v.extractLsb' 0 16 } }
  | .tfDevCtl => { s with tf := { s.tf with devCtl := v.extractLsb' 0 8 } }
  | .tfFeatures => { s with tf := { s.tf with features := v.extractLsb' 0 8 } }
  | .tfSecCount => { s with tf := { s.tf with secCount := v.extractLsb' 0 8 } }
  | .tfSecNum => { s with tf := { s.tf with secNum := v.extractLsb' 0 8 } }
  | .tfCylLo => { s with tf := { s.tf with cylLo := v.extractLsb' 0 8 } }
  | .tfCylHi => { s with tf := { s.tf with cylHi := v.extractLsb' 0 8 } }
  | .tfDevHead => { s with tf := { s.tf with devHead := v.extractLsb' 0 8 } }
  | .tfCommand => { s with tf := { s.tf with command := v.extractLsb' 0 8 } }
  | .xlLbaLow16 => { s with xl := { s.xl with lbaLow16 := v.extractLsb' 0 16 } }
  | .xlLbaMid16 => { s with xl := { s.xl with lbaMid16 := v.extractLsb' 0 16 } }
  | .xlLbaHigh16 => { s with xl := { s.xl with lbaHigh16 := v.extractLsb' 0 16 } }
  | .xlSecCount16 => { s with xl := { s.xl with secCount16 := v.extractLsb' 0 16 } }
  | .xlFeatures16 => { s with xl := { s.xl with features16 := v.extractLsb' 0 16 } }
  | .xlDevice => { s with xl := { s.xl with device := v.extractLsb' 0 8 } }
  | .xlCommand => { s with xl := { s.xl with command := v.extractLsb' 0 8 } }

/-- The value a host read of an offset of the BLK space returns: a register, the PRD window word, or 0
(R44, R73, R76). -/
def blkRead (o : Nat) (s : State) : Word :=
  match regAt o with
  | some r => regRead r s
  | none => if prdWindow ≤ o then BitVec.ofNat 32 (memRead s.table (o - prdWindow) 4) else 0

/-- A host write of OPR: the word is stored and the operation it encodes performed; an illegal word
ends with ERR_BAD_OPCODE and changes nothing else (R23, R100, R106). -/
def issue (w : Word) (s : State) : Host.Outcome State Fault Refusal :=
  match decode w with
  | .ok i => exec i { s with opr := w }
  | .error _ => .next (finish .errBadOpcode { s with opr := w })

/-- A host write of an offset of the BLK space (R72). -/
def blkWrite (o : Nat) (v : Word) (s : State) : Host.Outcome State Fault Refusal :=
  match regAt o with
  | some .opr => issue v s
  | some r => .next (regWrite r v s)
  | none => .next s

/-- A host write access: 32 bits wide, aligned, inside the BLK space (R20, R71, log entries 11 and 22). -/
def hostWrite (width o : Nat) (v : Word) (s : State) : Host.Outcome State Fault Refusal :=
  if width ≠ 32 then .refused .accessWidth
  else if o % 4 ≠ 0 then .refused .accessUnaligned
  else if o < blkBytes then blkWrite o v s
  else .fault .outsideBlkSpace

/-- A host read access: the value goes to the host and no state of the block or of the engine changes
(R71, R73). -/
def hostRead (width o : Nat) (s : State) : Host.Outcome State Fault Refusal :=
  if width ≠ 32 then .refused .accessWidth
  else if o % 4 ≠ 0 then .refused .accessUnaligned
  else if o < blkBytes then .next { s with readLog := s.readLog ++ [blkRead o s] }
  else .fault .outsideBlkSpace

end Sys2Proof.Machine
end

