-- ==== Sys2Proof/Machine/Step.lean ====
section
/-! DEFINITION. One step: the next event that reaches the machine takes effect (spec/20_memory.md R80, R83). -/

namespace Sys2Proof.Machine

/-- The effect of one event: a host access, an access of the host to the engine, or DONE. -/
def stepEvent (e : Event) (s : State) : Host.Outcome State Fault Refusal :=
  match e with
  | .write width o v => hostWrite width o v s
  | .read width o => hostRead width o s
  | .bmWrite r v => hostBmWrite r v s
  | .bmRead r => hostBmRead r s
  | .done b => doneEvent b s

/-- One step: the first event leaves the stream and takes effect; with none the block waits (R21). -/
def step (s : State) : Host.Outcome State Fault Refusal :=
  match s.events with
  | [] => .next s
  | e :: rest => stepEvent e { s with events := rest }

/-- The state whose next event is the host's write of the operation word to OPR (R100): the block
fetches nothing, it is given its operations one by one (R21, log entry 1). -/
def State.withFetchWord (s : State) (nbits w : Nat) : State :=
  { s with events := .write 32 (regOffset .opr) (BitVec.ofNat 32 (w % 2 ^ nbits)) :: s.events }

end Sys2Proof.Machine
end

