-- ==== Sys2Proof/Machine/Assembler.lean ====
section
/-! DEFINITION. The host accesses an assembly line stands for (spec/30_encoding.md R110, R111, D30), and how the text of
a line is read. -/

namespace Sys2Proof.Machine

/-- The offset a register reference names (R20, R110). -/
def refOffset : RegRef → Nat
  | .named r => regOffset r
  | .offset o => o

/-- `WR <reg>, <value>`: a 32-bit host write (R110). -/
def accessWr (r : RegRef) (v : Nat) : Event := .write 32 (refOffset r) (BitVec.ofNat 32 v)

/-- `RD <reg>`: a 32-bit host read (R110). -/
def accessRd (r : RegRef) : Event := .read 32 (refOffset r)

/-- An operation line: `WR OPR, <word>` (R110). -/
def accessOp (i : Instr) : Event := .write 32 (regOffset .opr) (encode i)

/-- The host accesses a line stands for, in order; none for an ill-formed line (R110, R111). -/
def assemble (l : AsmLine) : Option (List Event) :=
  if l.wellFormed then
    some (match l with
      | .wr r v => [accessWr r v]
      | .rd r => [accessRd r]
      | .nop => [accessOp .nop]
      | .cmdreset => [accessOp .cmdreset]
      | .setlba28 u => [accessOp (.setlba28 (BitVec.ofNat 4 u))]
      | .setxlba u x => [accessOp (.setxlba (BitVec.ofNat 4 u) (BitVec.ofNat 8 x))]
      | .getxlba => [accessOp .getxlba]
      | .xzero => [accessOp .xzero]
      | .startdma => [accessOp .startdma]
      | .stopdma => [accessOp .stopdma]
      | .onint => [accessOp .onint]
      | .lba28 u lba => [accessWr (.named .arg0) lba, accessOp (.setlba28 (BitVec.ofNat 4 u))]
      | .lba48 u hi lo cnt xc =>
          [accessWr (.named .arg0) lo, accessWr (.named .arg1) hi, accessWr (.named .arg2) cnt,
           accessOp (.setxlba (BitVec.ofNat 4 u) (BitVec.ofNat 8 xc))]
      | .xlbard => [accessOp .getxlba, accessRd (.named .res0), accessRd (.named .res1)]
      | .xfer f p n =>
          [accessWr (.named .cmdFlags) f, accessWr (.named .cmdPosition) p,
           accessWr (.named .cmdByteCount) n, accessOp .startdma])
  else none

/-- The name of a register in an assembly line (R20, R110). -/
def regName : Reg → List Char
  | .opr => "OPR".toList | .opstat => "OPSTAT".toList | .arg0 => "ARG0".toList | .arg1 => "ARG1".toList
  | .arg2 => "ARG2".toList | .res0 => "RES0".toList | .res1 => "RES1".toList
  | .dmastate => "DMASTATE".toList | .prdbase => "PRDBASE".toList | .cmdFlags => "CMD_FLAGS".toList
  | .cmdPosition => "CMD_POSITION".toList | .cmdByteCount => "CMD_BYTECOUNT".toList
  | .cmdActual => "CMD_ACTUAL".toList | .tfData => "TF_DATA".toList | .tfDevCtl => "TF_DEVCTL".toList
  | .tfFeatures => "TF_FEATURES".toList | .tfSecCount => "TF_SECCOUNT".toList
  | .tfSecNum => "TF_SECNUM".toList | .tfCylLo => "TF_CYLLO".toList | .tfCylHi => "TF_CYLHI".toList
  | .tfDevHead => "TF_DEVHEAD".toList | .tfCommand => "TF_COMMAND".toList
  | .xlLbaLow16 => "XL_LBALOW16".toList | .xlLbaMid16 => "XL_LBAMID16".toList
  | .xlLbaHigh16 => "XL_LBAHIGH16".toList | .xlSecCount16 => "XL_SECCOUNT16".toList
  | .xlFeatures16 => "XL_FEATURES16".toList | .xlDevice => "XL_DEVICE".toList
  | .xlCommand => "XL_COMMAND".toList

/-- The value of a digit in a base, upper or lower case. -/
def digitValue (base : Nat) (c : Char) : Option Nat :=
  let n := c.toNat
  let d := if 48 ≤ n ∧ n ≤ 57 then n - 48
    else if 65 ≤ n ∧ n ≤ 70 then n - 55
    else if 97 ≤ n ∧ n ≤ 102 then n - 87
    else base
  if d < base then some d else none

/-- The number a run of digits writes, after the digits read so far. -/
def digitsValue (base : Nat) : Nat → List Char → Option Nat
  | acc, [] => some acc
  | acc, c :: cs =>
    match digitValue base c with
    | some d => digitsValue base (base * acc + d) cs
    | none => none

/-- A value in decimal or `0x` hexadecimal (R110). -/
def parseNumber : List Char → Option Nat
  | [] => none
  | '0' :: 'x' :: c :: cs => digitsValue 16 0 (c :: cs)
  | c :: cs => digitsValue 10 0 (c :: cs)

/-- A register by its name or by an offset `0xNNN` (R110). -/
def parseReg (w : List Char) : Option RegRef :=
  match allRegs.find? (fun r => regName r == w) with
  | some r => some (.named r)
  | none => if w.take 2 == ['0', 'x'] then (parseNumber w).map .offset else none

/-- The words of a line: runs of characters between blanks, and each comma a word of its own. The
second argument is the run read so far, last character first. -/
def lineWords : List Char → List Char → List (List Char)
  | [], run => if run = [] then [] else [run.reverse]
  | c :: cs, run =>
    let before := if run = [] then [] else [run.reverse]
    if c = ' ' ∨ c = '\t' then before ++ lineWords cs []
    else if c = ',' then before ++ [','] :: lineWords cs []
    else lineWords cs (c :: run)

/-- Every second word, the words between being commas. -/
def commaList : List (List Char) → Option (List (List Char))
  | [] => some []
  | [w] => some [w]
  | w :: [','] :: ws =>
    match commaList ws with
    | some (v :: vs) => some (w :: v :: vs)
    | _ => none
  | _ => none

/-- The line a mnemonic and its operand words stand for (R110, R111). -/
def parseOp (m : List Char) (args : List (List Char)) : Option AsmLine :=
  if m = "WR".toList then
    match args with
    | [r, v] => do some (.wr (← parseReg r) (← parseNumber v))
    | _ => none
  else if m = "RD".toList then
    match args with
    | [r] => do some (.rd (← parseReg r))
    | _ => none
  else do
    let ns ← args.mapM parseNumber
    match ns with
    | [] =>
      if m = "NOP".toList then some .nop
      else if m = "CMDRESET".toList then some .cmdreset
      else if m = "GETXLBA".toList then some .getxlba
      else if m = "XZERO".toList then some .xzero
      else if m = "STARTDMA".toList then some .startdma
      else if m = "STOPDMA".toList then some .stopdma
      else if m = "ONINT".toList then some .onint
      else if m = "XLBARD".toList then some .xlbard
      else none
    | [u] => if m = "SETLBA28".toList then some (.setlba28 u) else none
    | [a, b] =>
      if m = "SETXLBA".toList then some (.setxlba a b)
      else if m = "LBA28".toList then some (.lba28 a b)
      else none
    | [f, p, n] => if m = "XFER".toList then some (.xfer f p n) else none
    | [u, hi, lo, cnt, xc] => if m = "LBA48".toList then some (.lba48 u hi lo cnt xc) else none
    | _ => none

/-- The accesses one line of text stands for: `;` starts a comment and a line without a mnemonic has
none (R110). Log entry 14. -/
def assembleText (line : List Char) : Option (List Event) :=
  match lineWords (line.takeWhile (· != ';')) [] with
  | [] => some []
  | m :: ws => do assemble (← parseOp m (← commaList ws))

/-- The accesses of a program, line by line (R110). -/
def assembleProgram : List (List Char) → Option (List Event)
  | [] => some []
  | l :: ls => do
    let first ← assembleText l
    let rest ← assembleProgram ls
    some (first ++ rest)

end Sys2Proof.Machine
end

