-- ==== Sys2Proof/Safety.lean ====
section
/-! DEFINITION. The terms the statements use: the columns of the register map, what holds between operations, the
duties the spec lays on the host and the provider, and the chain of PRD entries a list of segments
asks for, said without the builder's loop. -/

namespace Sys2Proof.Machine

/-- The width column of the register map (R20). -/
def regWidth : Reg → Nat
  | .opr | .arg0 | .arg1 | .arg2 | .res0 | .res1 | .prdbase | .cmdPosition | .cmdByteCount
  | .cmdActual => 32
  | .dmastate | .tfData | .xlLbaLow16 | .xlLbaMid16 | .xlLbaHigh16 | .xlSecCount16
  | .xlFeatures16 => 16
  | .opstat | .tfDevCtl | .tfFeatures | .tfSecCount | .tfSecNum | .tfCylLo | .tfCylHi | .tfDevHead
  | .tfCommand | .xlDevice | .xlCommand => 8
  | .cmdFlags => 2

/-- The host may write the register, with no effect but storing a value (R20); OPR is not among them. -/
def regStores : Reg → Bool
  | .opr | .opstat | .res0 | .res1 | .dmastate | .cmdActual => false
  | _ => true

/-- What a register keeps of a value written to it: `trunc_w`, PRDBASE with bits [1:0] 0 (R72). -/
def regKeeps (r : Reg) (v : Nat) : Nat :=
  if r = .prdbase then v / 4 * 4 else v % 2 ^ regWidth r

/-- The read column of the register map, written out: the offset of each register and the value of its own
field, zero-extended (R20, R23 to R37, R73). The fields of DMASTATE stand where R27 puts them. -/
def registerImage (s : State) : List (Nat × Nat) :=
  [ (0x000, s.opr.toNat), (0x004, s.opstat.toNat),
    (0x008, s.arg0.toNat), (0x00C, s.arg1.toNat), (0x010, s.arg2.toNat),
    (0x014, s.res0.toNat), (0x018, s.res1.toNat),
    (0x01C, s.dma.code.toNat + s.lastStop.code.toNat * 2 ^ 4 + s.prdCount.toNat * 2 ^ 8),
    (0x020, s.prdBase.toNat), (0x024, s.cmdFlags.toNat), (0x028, s.cmdPosition.toNat),
    (0x02C, s.cmdByteCount.toNat), (0x030, s.cmdActual.toNat),
    (0x040, s.tf.data.toNat), (0x044, s.tf.devCtl.toNat), (0x048, s.tf.features.toNat),
    (0x04C, s.tf.secCount.toNat), (0x050, s.tf.secNum.toNat), (0x054, s.tf.cylLo.toNat),
    (0x058, s.tf.cylHi.toNat), (0x05C, s.tf.devHead.toNat), (0x060, s.tf.command.toNat),
    (0x080, s.xl.lbaLow16.toNat), (0x084, s.xl.lbaMid16.toNat), (0x088, s.xl.lbaHigh16.toNat),
    (0x08C, s.xl.secCount16.toNat), (0x090, s.xl.features16.toNat), (0x094, s.xl.device.toNat),
    (0x098, s.xl.command.toNat) ]

/-- What holds of the machine between operations. -/
structure Inv (s : State) : Prop where
  /-- STATE is Inactive or Status only (R40, R201). -/
  dma_settled : s.dma = .inactive ∨ s.dma = .status
  /-- Only the codes of R231 are ever in OPSTAT. -/
  code_listed : s.opstat.toNat ≤ 5
  /-- PRDCOUNT is 0..64 (R27). -/
  count_bound : s.prdCount.toNat ≤ 64
  /-- PRDBASE[1:0] are 0 (R28). -/
  prdBase_aligned : s.prdBase.toNat % 4 = 0
  /-- BM_PRDTP[1:0] are 0 (R200). -/
  prdtp_aligned : s.engine.prdtp.toNat % 4 = 0
  /-- RES1 is always below 2^16 (R134). -/
  res1_bound : s.res1.toNat < 2 ^ 16
  /-- The PRD table storage stays in its canonical form, inside its 512 bytes (R38). -/
  table_wf : s.table.wf = true
  /-- The engine's START bit is 1 exactly while the block holds a program (R202, R204, R272). -/
  start_iff_program : s.engine.cmd.getLsbD 0 = true ↔ s.dma = .status
  /-- The engine is active only while its START bit is 1 (R215). -/
  active_started : s.engine.active = true → s.engine.cmd.getLsbD 0 = true

/-- The accesses the block supports, and the host's duties toward the engine: R20 and R71 for its
port, R272 for the engine's registers, and DONE only where it can occur (R215, R238). -/
def eventAllowed (s : State) : Event → Bool
  | .write width o _ => width == 32 && o % 4 == 0 && decide (o < 0x400)
  | .read width o => width == 32 && o % 4 == 0 && decide (o < 0x400)
  | .bmWrite r v => decide (s.dma ≠ .status) && !(r == .cmd && v.getLsbD 0)
  | .bmRead _ => true
  | .done _ => doneEnabled s

/-- The listed answers meet the provider's duties for a transfer of which `rem` bytes remain, and
they end it: the transfer is covered, or an answer says that there is no further segment (R162). -/
def answersDutiful : List SegAnswer → Nat → Bool
  | [], rem => rem == 0
  | none :: _, _ => true
  | some g :: as, rem => rem == 0 || (g.meetsDuty rem && answersDutiful as (rem - g.len))

/-- The answer the provider gives to the k-th query made from a state: the k-th listed one, and behind the
end of the list the free value of its draw (R162, log entry 5). -/
def answerAt (s : State) (k : Nat) (q : SegQuery) : SegAnswer :=
  match s.segAnswers[k]? with
  | some a => a
  | none => Config.segAnswer (s.draws + (k - s.segAnswers.length)) q.pos q.rem

/-- An illegal operation word, said in numbers: an OPC outside the table, or a listed OPC with a
must-be-zero bit set (R105, R106). -/
def illegalWord (n : Nat) : Bool :=
  let opc := n % 256
  if opc = 0x10 then decide (n / 2 ^ 12 ≠ 0)
  else if opc = 0x11 then decide (n / 2 ^ 24 ≠ 0) || decide (n / 2 ^ 12 % 16 ≠ 0)
  else if opc ∈ [0x00, 0x01, 0x12, 0x13, 0x20, 0x21, 0x22] then decide (n / 2 ^ 8 ≠ 0)
  else true

/-- The unassigned offsets of the BLK space (R44). -/
def unassignedOffset (o : Nat) : Bool :=
  o % 4 == 0 &&
    (decide (0x034 ≤ o ∧ o ≤ 0x03C) || decide (0x064 ≤ o ∧ o ≤ 0x07C) || decide (0x09C ≤ o ∧ o ≤ 0x1FC))

/-- A segment that lies in the 32-bit physical address space and is not empty (R162). -/
def segmentPlaced (g : Segment) : Bool := decide (1 ≤ g.len) && decide (g.addr + g.len ≤ 2 ^ 32)

/-- The bytes a list of segments holds. -/
def totalBytes (gs : List Segment) : Nat := (gs.map Segment.len).sum

/-- The 64KB blocks a segment touches: ((p + c - 1) >> 16) - (p >> 16) + 1 (R172). -/
def blocksTouched (g : Segment) : Nat := (g.addr + g.len - 1) / block64K - g.addr / block64K + 1

/-- The piece of a segment in the k-th 64KB block it touches (R14 "Piece"). -/
def pieceInBlock (g : Segment) (k : Nat) : Segment :=
  let lo := max g.addr ((g.addr / block64K + k) * block64K)
  let hi := min (g.addr + g.len) ((g.addr / block64K + k + 1) * block64K)
  { addr := lo, len := hi - lo }

/-- The pieces of a segment, one for each 64KB block it touches (R14, R172). -/
def segmentPieces (g : Segment) : List Segment := (List.range (blocksTouched g)).map (pieceInBlock g)

/-- The pieces of a transfer: those of its segments, in order (R174). -/
def chainPieces (gs : List Segment) : List Segment := gs.flatMap segmentPieces

/-- The PRD entry that describes a piece (R39, R160). -/
def pieceEntry (g : Segment) (last : Bool) : PrdEntry :=
  { bufferPtr := BitVec.ofNat 32 g.addr
    byteCount := BitVec.ofNat 16 g.len
    flags := if last then 0x8000 else 0 }

/-- The stop entry of a freshly reinitialised table (R161). -/
def stopEntry : PrdEntry := { bufferPtr := 0, byteCount := 0, flags := 0x8000 }

/-- The two writes an effective stop makes, in their order (R202). -/
def stopWrites : List BmAccess := [.write .status 0x06, .write .cmd 0x00]

/-- The writes a stop makes from a given DMA state: none from Inactive (R202). -/
def stopWritesFrom (d : DmaState) : List BmAccess := if d = .inactive then [] else stopWrites

/-- LASTSTOP after a stop from a given DMA state (R202). -/
def lastStopAfter (d old : DmaState) : DmaState := if d = .inactive then old else d

/-- The engine after a stop from a given DMA state: untouched from Inactive; else ERR and INT clear,
halted (R202, R215). -/
def engineStopped (d : DmaState) (e : Engine) : Engine :=
  if d = .inactive then e else { e with cmd := 0, active := false, err := false, int := false }

end Sys2Proof.Machine
end

