-- ==== Sys2Proof/Certificates/Slice0/Obligations.lean ====
section
/-! DEFINITION. The statements for the provers. Each docstring names the rule of spec/ the statement follows; a
value the model chose is named with its log entry. -/

open Sys2Proof Sys2Proof.Machine

/-! ### The operation word (spec/30_encoding.md) -/

/-- Decoding the word of an instruction gives it back, with every operand (R101, R102, R104). -/
def Obligations.DecodeOfEncode : Prop := ∀ i : Instr, decode (encode i) = .ok i

/-- A word that decodes is the word of its instruction: no bit of it is dropped (R104, R105). -/
def Obligations.EncodeOfDecode : Prop := ∀ (w : Word) (i : Instr), decode w = .ok i → encode i = w

/-- "at most one row matches any word": no word selects two different rows of the map (R104). -/
def Obligations.OpcodeRowsDisjoint : Prop :=
  ∀ w : Word, ∀ r ∈ opcodeTable, ∀ r' ∈ opcodeTable, r.selects w = true → r'.selects w = true → r = r'

/-- Words written out from the map of R104 decode to their operations; words of R106 do not. -/
def Obligations.SampleWordsDecode : Prop :=
  decode 0x00000000#32 = .ok .nop ∧ decode 0x00000110#32 = .ok (.setlba28 1)
    ∧ decode 0x00250111#32 = .ok (.setxlba 1 0x25) ∧ decode 0x00000020#32 = .ok .startdma
    ∧ decode 0x00000022#32 = .ok .onint ∧ decode 0x00000014#32 = .error .unassignedOpc
    ∧ decode 0x00001110#32 = .error .mustBeZeroBitSet

/-- A word decodes exactly if it is no illegal word: its OPC is listed and every must-be-zero bit of
its row is 0 (R105, R106). -/
def Obligations.LegalWordsDecode : Prop :=
  ∀ w : Word, illegalWord w.toNat = false ↔ ∃ i, decode w = .ok i

/-- Writing an illegal word to OPR stores it and ends with code 4; nothing else changes but that the
host's access is over (R106). -/
def Obligations.IllegalWordReported : Prop :=
  ∀ (s : State) (w : Word) (rest : List Event), s.events = .write 32 0x000 w :: rest →
    illegalWord w.toNat = true →
    step s = .next { s with events := rest, opr := w, opstat := 0x04 }

/-- A step whose event is the host's write of a word that decodes runs the decoded operation, with the
access over and OPR holding the word (R23, R100). -/
def Obligations.StepRunsDecodedOperation : Prop :=
  ∀ (s : State) (w : Word) (rest : List Event) (i : Instr), s.events = .write 32 0x000 w :: rest →
    decode w = .ok i → step s = exec i { s with events := rest, opr := w }

/-! ### The LBA encoder (spec/41_lba_encoder.md) -/

/-- NOP: word 0x00000000, in any state OPSTAT takes 0 and nothing else changes; a non-zero word with
OPC 0x00 is illegal (R130). -/
def Obligations.NopChangesOnlyOpstat : Prop :=
  decode 0x00000000#32 = .ok .nop ∧ (∀ s : State, exec .nop s = .next { s with opstat := 0x00 }) ∧
  ∀ w : Word, w.toNat % 2 ^ 8 = 0 → w ≠ 0 → ∃ e, decode w = .error e

/-- CMDRESET: word 0x00000001; the nine task-file, the seven extended-LBA and the four command registers
become 0 and nothing else changes but OPSTAT (R131). -/
def Obligations.CmdresetClearsCommand : Prop :=
  decode 0x00000001#32 = .ok .cmdreset ∧
  ∀ s : State, exec .cmdreset s = .next
    { s with
      tf := { data := 0, devCtl := 0, features := 0, secCount := 0, secNum := 0, cylLo := 0, cylHi := 0,
              devHead := 0, command := 0 }
      xl := { lbaLow16 := 0, lbaMid16 := 0, lbaHigh16 := 0, secCount16 := 0, features16 := 0,
              device := 0, command := 0 }
      cmdFlags := 0, cmdPosition := 0, cmdByteCount := 0, cmdActual := 0, opstat := 0x00 }

/-- Two CMDRESET operations in a row leave every register as one does (R138). -/
def Obligations.CmdresetIdempotent : Prop :=
  ∀ (s : State) (rest : List Event),
    s.events = .write 32 0x000 0x00000001#32 :: .write 32 0x000 0x00000001#32 :: rest →
    ∃ t, step s = .next t ∧ step t = .next { t with events := rest }

/-- SETLBA28: word 0x10 | unit << 8; an LBA below 2^28 and a unit 0 or 1 are packed into the four
registers, any other operand ends with ERR_RANGE and no register written (R132). -/
def Obligations.Setlba28PacksOrRejects : Prop :=
  ∀ (u : BitVec 4) (s : State),
    decode (BitVec.ofNat 32 (0x10 + u.toNat * 2 ^ 8)) = .ok (.setlba28 u) ∧
    exec (.setlba28 u) s = .next
      (if s.arg0.toNat < 2 ^ 28 ∧ u.toNat ≤ 1 then
        { s with
          tf := { s.tf with
            secNum := BitVec.ofNat 8 (s.arg0.toNat % 2 ^ 8)
            cylLo := BitVec.ofNat 8 (s.arg0.toNat / 2 ^ 8 % 2 ^ 8)
            cylHi := BitVec.ofNat 8 (s.arg0.toNat / 2 ^ 16 % 2 ^ 8)
            devHead := BitVec.ofNat 8 (s.arg0.toNat / 2 ^ 24 + 0x40 + u.toNat * 2 ^ 4) }
          opstat := 0x00 }
      else { s with opstat := 0x01 })

/-- After a successful SETLBA28 the task file gives the LBA and the unit back, and the LBA bit is 1
(R137). -/
def Obligations.Lba28ReadBack : Prop :=
  ∀ (u : BitVec 4) (s : State), s.arg0.toNat < 2 ^ 28 → u.toNat ≤ 1 →
    ∃ t, exec (.setlba28 u) s = .next t ∧ t.opstat = 0x00 ∧
      t.tf.secNum.toNat + t.tf.cylLo.toNat * 2 ^ 8 + t.tf.cylHi.toNat * 2 ^ 16
        + t.tf.devHead.toNat % 2 ^ 4 * 2 ^ 24 = s.arg0.toNat ∧
      t.tf.devHead.toNat / 2 ^ 4 % 2 = u.toNat ∧ t.tf.devHead.getLsbD 6 = true

/-- SETXLBA: word 0x11 | unit << 8 | xcmd << 16; the six LBA bytes go to the three pairs, the count, the
command and the device byte are stored, XL_FEATURES16 and everything else keep their values, and the
LBA bit of XL_DEVICE is 1 for every unit (R133). -/
def Obligations.SetxlbaInterleavesBytes : Prop :=
  ∀ (u : BitVec 4) (x : Byte) (s : State),
    decode (BitVec.ofNat 32 (0x11 + u.toNat * 2 ^ 8 + x.toNat * 2 ^ 16)) = .ok (.setxlba u x) ∧
    ∃ d : Byte, d.toNat = (0x40 ||| u.toNat * 2 ^ 4) % 2 ^ 8 ∧ d.getLsbD 6 = true ∧
    exec (.setxlba u x) s = .next
      { s with
        xl := { s.xl with
          lbaLow16 := BitVec.ofNat 16 (s.arg0.toNat % 2 ^ 8 + s.arg0.toNat / 2 ^ 24 * 2 ^ 8)
          lbaMid16 := BitVec.ofNat 16 (s.arg0.toNat / 2 ^ 8 % 2 ^ 8 + s.arg1.toNat % 2 ^ 8 * 2 ^ 8)
          lbaHigh16 := BitVec.ofNat 16 (s.arg0.toNat / 2 ^ 16 % 2 ^ 8 + s.arg1.toNat / 2 ^ 8 % 2 ^ 8 * 2 ^ 8)
          secCount16 := BitVec.ofNat 16 (s.arg2.toNat % 2 ^ 16)
          command := x
          device := d }
        opstat := 0x00 }

/-- GETXLBA: word 0x00000012; RES0 and RES1 take the LBA the three pairs hold, RES1 below 2^16, and
nothing else changes but OPSTAT (R134). -/
def Obligations.GetxlbaReconstructsLba : Prop :=
  decode 0x00000012#32 = .ok .getxlba ∧
  ∀ s : State, ∃ r0 r1 : Word,
    r0.toNat = s.xl.lbaLow16.toNat % 2 ^ 8 + s.xl.lbaMid16.toNat % 2 ^ 8 * 2 ^ 8
      + s.xl.lbaHigh16.toNat % 2 ^ 8 * 2 ^ 16 + s.xl.lbaLow16.toNat / 2 ^ 8 * 2 ^ 24 ∧
    r1.toNat = s.xl.lbaMid16.toNat / 2 ^ 8 + s.xl.lbaHigh16.toNat / 2 ^ 8 * 2 ^ 8 ∧
    r1.toNat < 2 ^ 16 ∧
    exec .getxlba s = .next { s with res0 := r0, res1 := r1, opstat := 0x00 }

/-- SETXLBA followed by GETXLBA, with no change of the extended LBA image between, returns lo and
hi[15:0] (R136). -/
def Obligations.XlbaRoundTrip : Prop :=
  ∀ (u : BitVec 4) (x : Byte) (s : State), ∃ t, exec (.setxlba u x) s = .next t ∧
    ∀ t' : State, t'.xl = t.xl → ∃ r, exec .getxlba t' = .next r ∧
      r.res0 = s.arg0 ∧ r.res1.toNat = s.arg1.toNat % 2 ^ 16

/-- XZERO: word 0x00000013; the seven extended-LBA registers become 0 and nothing else changes but
OPSTAT; a GETXLBA after it gives RES0 = RES1 = 0 (R135). -/
def Obligations.XzeroClearsImage : Prop :=
  decode 0x00000013#32 = .ok .xzero ∧
  ∀ s : State, ∃ t, exec .xzero s = .next t ∧
    t = { s with
          xl := { lbaLow16 := 0, lbaMid16 := 0, lbaHigh16 := 0, secCount16 := 0, features16 := 0,
                  device := 0, command := 0 }
          opstat := 0x00 } ∧
    ∃ r, exec .getxlba t = .next r ∧ r.res0 = 0 ∧ r.res1 = 0

/-! ### The host port (spec/10_state.md, spec/20_memory.md) -/

/-- A register the host may write keeps the value truncated to its width (PRDBASE with bits [1:0] 0) and
reads back so; every other register, the table, the engine and the provider stay as they are (R72,
R73). -/
def Obligations.RegisterStoresAndReadsBack : Prop :=
  ∀ (s : State) (r : Reg) (v : Word) (rest : List Event), regStores r = true →
    s.events = .write 32 (regOffset r) v :: .read 32 (regOffset r) :: rest →
    ∃ t, step s = .next t ∧
      step t = .next { t with events := rest,
                              readLog := s.readLog ++ [BitVec.ofNat 32 (regKeeps r v.toNat)] } ∧
      (∀ r', r' ≠ r → regRead r' t = regRead r' s) ∧
      t.table = s.table ∧ t.engine = s.engine ∧ t.segAnswers = s.segAnswers ∧ t.draws = s.draws ∧
      t.bmTrace = s.bmTrace ∧ t.segTrace = s.segTrace ∧ t.deviceIrqs = s.deviceIrqs

/-- Unassigned offsets read as 0 and ignore writes; writes of the read-only registers and of the PRD
window are ignored (R44). -/
def Obligations.IgnoredWritesAndZeroReads : Prop :=
  ∀ (s : State) (o : Nat) (v : Word) (rest : List Event),
    (unassignedOffset o = true → s.events = .read 32 o :: rest →
      step s = .next { s with events := rest, readLog := s.readLog ++ [0] }) ∧
    ((unassignedOffset o = true
        ∨ o ∈ [regOffset .opstat, regOffset .res0, regOffset .res1, regOffset .dmastate, regOffset .cmdActual]
        ∨ (0x200 ≤ o ∧ o < 0x400 ∧ o % 4 = 0)) →
      s.events = .write 32 o v :: rest → step s = .next { s with events := rest })

/-- A host read of a register returns that register's own field, zero-extended, at the offset the map gives
it; of the PRD window the four storage bytes; of an unassigned offset 0; and it changes no state of the block
or of the engine (R20, R23, R24, R26, R34, R73). -/
def Obligations.HostReadHasNoSideEffect : Prop :=
  ∀ (s : State) (o : Nat) (rest : List Event), o % 4 = 0 → o < 0x400 → s.events = .read 32 o :: rest →
    ∃ v, step s = .next { s with events := rest, readLog := s.readLog ++ [v] } ∧
      (∀ p ∈ registerImage s, p.1 = o → v.toNat = p.2) ∧
      (∀ r, regOffset r = o → v = regRead r s) ∧
      (0x200 ≤ o → v.toNat = memRead s.table (o - 0x200) 4) ∧
      (unassignedOffset o = true → v = 0)

/-- A host read at 0x200 + 4k returns the four storage bytes at 4k; so the word at 0x200 + 8i is entry
i's bufferPtr, and the word at 0x204 + 8i its byteCount and flags << 16 (R76). -/
def Obligations.PrdWindowShowsEntries : Prop :=
  (∀ (s : State) (k : Nat) (rest : List Event), k < 128 → s.events = .read 32 (0x200 + 4 * k) :: rest →
    step s = .next { s with events := rest,
                            readLog := s.readLog ++ [BitVec.ofNat 32 (memRead s.table (4 * k) 4)] }) ∧
  ∀ (s : State) (i : Nat), i < 64 →
    blkRead (0x200 + 8 * i) s = (entryAt s.table i).bufferPtr ∧
    (blkRead (0x204 + 8 * i) s).toNat
      = (entryAt s.table i).byteCount.toNat + (entryAt s.table i).flags.toNat * 2 ^ 16

/-- A host access of another width or at an offset that is no multiple of 4 is refused (R71). -/
def Obligations.UnsupportedAccessRefused : Prop :=
  ∀ (s : State) (width o : Nat) (v : Word) (rest : List Event), (width ≠ 32 ∨ o % 4 ≠ 0) →
    (s.events = .write width o v :: rest ∨ s.events = .read width o :: rest) → ∃ r, step s = .refused r

/-- An aligned 32-bit access outside the 1024 bytes of the BLK space faults: the model's choice, log
entry 11. -/
def Obligations.AccessOutsideBlkSpaceFaults : Prop :=
  ∀ (s : State) (o : Nat) (v : Word) (rest : List Event), o % 4 = 0 → 0x400 ≤ o →
    (s.events = .write 32 o v :: rest ∨ s.events = .read 32 o :: rest) →
    step s = .fault .outsideBlkSpace

/-- The fields of DMASTATE stand at bits [2:0], [6:4] and [15:8] and every other bit reads 0; the codes of
the states are 0 to 4 in the order Inactive, Starting, Status, Complete, Error (R27). -/
def Obligations.DmastateFieldPlaces : Prop :=
  (∀ s : State, (regRead .dmastate s).toNat
    = s.dma.code.toNat + s.lastStop.code.toNat * 2 ^ 4 + s.prdCount.toNat * 2 ^ 8) ∧
  DmaState.inactive.code.toNat = 0 ∧ DmaState.starting.code.toNat = 1 ∧ DmaState.status.code.toNat = 2 ∧
  DmaState.complete.code.toNat = 3 ∧ DmaState.error.code.toNat = 4

/-! ### The builder (spec/42_prd_builder.md) -/

/-- For one segment the builder emits as many entries as the segment touches 64KB blocks, unless the
slots run out; the entries' ranges lie in one block each, are consecutive and sum to the segment, each
of 1 to 0x10000 bytes (R171, R172). -/
def Obligations.SegmentSplitsAtBoundaries : Prop :=
  ∀ (last : Bool) (slots p c : Nat) (s : State), slots ≤ 64 → 1 ≤ c → p + c ≤ 2 ^ 32 →
    (p + c - 1) / 2 ^ 16 - p / 2 ^ 16 + 1 ≤ slots →
    ∃ (t : State) (pieces : List Segment),
      emitSegment last slots p c s = .written (slots - pieces.length) t ∧
      pieces.length = (p + c - 1) / 2 ^ 16 - p / 2 ^ 16 + 1 ∧
      t.prdCount.toNat = 64 - slots + pieces.length ∧
      totalBytes pieces = c ∧
      (∀ (k : Nat) (g : Segment), pieces[k]? = some g →
        g.addr = p + totalBytes (pieces.take k) ∧ 1 ≤ g.len ∧ g.len ≤ 0x10000 ∧
        g.addr / 2 ^ 16 = (g.addr + g.len - 1) / 2 ^ 16 ∧
        entryAt t.table (64 - slots + k) = pieceEntry g (last && decide (k + 1 = pieces.length))) ∧
      (∀ i, i < 64 - slots ∨ 64 - slots + pieces.length ≤ i → entryAt t.table i = entryAt s.table i)

/-- For given answers that cover the transfer or end it early, with N pieces in all: BUILD succeeds in
Status if N <= 64; if N > 64 it fails with code ERR_TABLE_EXHAUSTED in Error, entries 0..63 written
(R167, R174). On success PRDCOUNT is their number, but for an empty list of segments, where BUILD emits
nothing and leaves PRDCOUNT as it was. -/
def Obligations.BuildFailsExactlyWhenExhausted : Prop :=
  ∀ (s : State) (gs : List Segment) (rest : List SegAnswer), bufferValid s = true →
    (∀ g ∈ gs, segmentPlaced g = true) → s.segAnswers = gs.map some ++ rest →
    (totalBytes gs = s.cmdByteCount.toNat
      ∨ (totalBytes gs < s.cmdByteCount.toNat ∧ ∃ rest', rest = none :: rest')) →
    if (chainPieces gs).length ≤ 64 then
      ∃ t, build s = .built t ∧ t.dma = .status ∧ (gs ≠ [] → t.prdCount.toNat = (chainPieces gs).length)
    else
      ∃ t, build s = .failed .errTableExhausted t ∧ t.dma = .error ∧ t.prdCount.toNat = 64 ∧
        ∀ (i : Nat) (g : Segment), i < 64 → (chainPieces gs)[i]? = some g →
          entryAt t.table i = pieceEntry g false

/-- A successful build whose provider covers the transfer: STARTDMA leaves the entries of the transfer's
pieces, exactly the last of them with EOT, stop entries behind them, PRDCOUNT their number, STATE
Status, and the engine's base and start written after the stop of any prior program (R166, R168, R173,
R204, R206). -/
def Obligations.StartdmaBuildsChain : Prop :=
  ∀ (s : State) (gs : List Segment) (rest : List SegAnswer), bufferValid s = true →
    (∀ g ∈ gs, segmentPlaced g = true) → totalBytes gs = s.cmdByteCount.toNat →
    s.segAnswers = gs.map some ++ rest → (chainPieces gs).length ≤ 64 →
    ∃ t, exec .startdma s = .next t ∧ t.opstat = 0x00 ∧ t.dma = .status ∧
      t.lastStop = lastStopAfter s.dma s.lastStop ∧
      t.prdCount.toNat = (chainPieces gs).length ∧
      (∀ (i : Nat) (g : Segment), (chainPieces gs)[i]? = some g →
        entryAt t.table i = pieceEntry g (decide (i + 1 = (chainPieces gs).length))) ∧
      (∀ i, (chainPieces gs).length ≤ i → i < 64 → entryAt t.table i = stopEntry) ∧
      t.bmTrace = s.bmTrace ++ stopWritesFrom s.dma
        ++ [.write .prdtp s.prdBase, .write .cmd (if s.cmdFlags.getLsbD 0 then 0x09 else 0x01)] ∧
      t.segAnswers = rest

/-- What the engine walks after such a start is the transfer, no more and no less: one entry for each
piece, in order, the last one alone with EOT; and under the reading of a zero count as 65536 bytes it moves
each piece's bytes. That reading is one value of the open parameter ENGINE_ZERO_COUNT (D26, U4, log entry 8)
and is assumed here. The engine's START bit was 0 before the start unless a program was stopped, as the boot
duty asks (R264), so that the start command makes it run (R83, R171, R173, R215). -/
def Obligations.EngineWalksExactlyTheTransfer : Prop :=
  ∀ (s : State) (gs : List Segment) (rest : List SegAnswer), bufferValid s = true →
    (∀ g ∈ gs, segmentPlaced g = true) → totalBytes gs = s.cmdByteCount.toNat → gs ≠ [] →
    s.segAnswers = gs.map some ++ rest → (chainPieces gs).length ≤ 64 →
    placementMet s.prdBase = true → (s.dma ≠ .inactive ∨ s.engine.cmd.getLsbD 0 = false) →
    ∃ t, exec .startdma s = .next t ∧ walkRunsPast t = false ∧
      (engineWalk t).map (fun e => (e.bufferPtr.toNat, entryBytes .bytes65536 e))
        = (chainPieces gs).map (fun g => (g.addr, some g.len)) ∧
      (engineWalk t).map entryEot
        = List.replicate ((chainPieces gs).length - 1) false ++ [true] ∧
      totalBytes (chainPieces gs) = s.cmdByteCount.toNat ∧
      t.prdCount.toNat = (chainPieces gs).length ∧
      ∀ i, (chainPieces gs).length ≤ i → i < 64 → entryEot (entryAt t.table i) = true

/-- If the provider ends early the build succeeds and no emitted entry carries EOT; the first unwritten
slot still holds the stop entry, so the engine, which the start made run (its START bit was 0 before unless a
program was stopped), runs on to it, or past entry 63 if all 64 are written (R169, R268). -/
def Obligations.EarlyEndLeavesNoMarker : Prop :=
  ∀ (s : State) (gs : List Segment) (rest : List SegAnswer), bufferValid s = true →
    (∀ g ∈ gs, segmentPlaced g = true) → totalBytes gs < s.cmdByteCount.toNat →
    s.segAnswers = gs.map some ++ none :: rest → (chainPieces gs).length ≤ 64 →
    ∃ t, exec .startdma s = .next t ∧ t.opstat = 0x00 ∧ t.dma = .status ∧
      t.prdCount.toNat = (chainPieces gs).length ∧
      (∀ (i : Nat) (g : Segment), (chainPieces gs)[i]? = some g →
        entryAt t.table i = pieceEntry g false) ∧
      (∀ i, (chainPieces gs).length ≤ i → i < 64 → entryAt t.table i = stopEntry) ∧
      (placementMet s.prdBase = true → (s.dma ≠ .inactive ∨ s.engine.cmd.getLsbD 0 = false) →
        if (chainPieces gs).length < 64 then
          engineWalk t = (chainPieces gs).map (fun g => pieceEntry g false) ++ [stopEntry]
            ∧ walkRunsPast t = false
        else walkRunsPast t = true)

/-- With a byte count of 0 and a buffer no query is made and no entry written; the build succeeds with
PRDCOUNT 0, the table all stop entries, and the engine is started (R170). -/
def Obligations.ZeroLengthStartsOnStopTable : Prop :=
  ∀ s : State, bufferValid s = true → s.cmdByteCount = 0 →
    ∃ t, exec .startdma s = .next t ∧ t.opstat = 0x00 ∧ t.dma = .status ∧ t.prdCount = 0 ∧
      t.segTrace = s.segTrace ∧ t.segAnswers = s.segAnswers ∧ t.draws = s.draws ∧
      (∀ i, i < 64 → entryAt t.table i = stopEntry) ∧ t.engine.cmd.getLsbD 0 = true

/-- Without a buffer BUILD returns ERR_NULL_BUFFER with no query, no entry and STATE as it was; STARTDMA
ends with that code, the table all stop entries, STATE Inactive and LASTSTOP Starting, after the writes of
the forced stop and of the failure stop (R164, R207). -/
def Obligations.NullBufferRejected : Prop :=
  ∀ s : State, bufferValid s = false → build s = .failed .errNullBuffer s ∧
    ∃ t, exec .startdma s = .next t ∧ t.opstat = 0x02 ∧ t.dma = .inactive ∧ t.lastStop = .starting ∧
      t.prdCount = 0 ∧ (∀ i, i < 64 → entryAt t.table i = stopEntry) ∧
      t.segTrace = s.segTrace ∧ t.segAnswers = s.segAnswers ∧ t.draws = s.draws ∧
      t.bmTrace = s.bmTrace ++ stopWritesFrom s.dma ++ stopWrites ∧
      t.engine = { s.engine with cmd := 0, active := false, err := false, int := false }

/-- STARTDMA makes at most 65 segment queries, each with at least one byte remaining. All but the last are
answered with a segment, and the k-th query stands at CMD_POSITION plus the bytes of the first k answers,
with what CMD_BYTECOUNT leaves beyond them as its remaining count (R162, R163, R175; the answers behind the
end of the list are log entry 5). -/
def Obligations.SegmentQueriesBounded : Prop :=
  ∀ s t : State, exec .startdma s = .next t →
    ∃ (qs : List SegQuery) (answers : List Segment),
      t.segTrace = s.segTrace ++ qs ∧ qs.length ≤ 65 ∧
      answers.length ≤ qs.length ∧ qs.length ≤ answers.length + 1 ∧
      ∀ (k : Nat) (q : SegQuery), qs[k]? = some q →
        q.pos = s.cmdPosition.toNat + totalBytes (answers.take k) ∧
        q.rem + totalBytes (answers.take k) = s.cmdByteCount.toNat ∧ 1 ≤ q.rem ∧
        ∀ g, answers[k]? = some g → answerAt s k q = some g

/-- BUILD changes only the PRD table, PRDCOUNT and STATE, beside the provider's and the model's own
record: no bus-master register is touched (R176). -/
def Obligations.BuildTouchesNoEngineRegister : Prop :=
  ∀ s t : State, (build s = .built t ∨ ∃ c, build s = .failed c t) →
    t = { s with table := t.table, prdCount := t.prdCount, dma := t.dma,
                 segAnswers := t.segAnswers, draws := t.draws, segTrace := t.segTrace }

/-- An answer that breaks the provider's duties has no step: STARTDMA is refused by name, whatever good
answers came before it (R162; how the model stops is log entry 6). -/
def Obligations.BrokenProviderDutyRefused : Prop :=
  ∀ (s : State) (gs : List Segment) (g : Segment) (rest : List SegAnswer), bufferValid s = true →
    (∀ g' ∈ gs, segmentPlaced g' = true) → totalBytes gs < s.cmdByteCount.toNat →
    (chainPieces gs).length ≤ 64 → s.segAnswers = gs.map some ++ some g :: rest →
    g.meetsDuty (s.cmdByteCount.toNat - totalBytes gs) = false →
    exec .startdma s = .refused .providerDuty

/-! ### The sequencer (spec/43_dma_engine.md) -/

/-- STARTDMA completes for every transfer whose listed answers meet the provider's duties and end it: it
takes a next state, and its outcome is one of three, each with its stop (R204, R207). -/
def Obligations.StartdmaCompletes : Prop :=
  ∀ s : State, (bufferValid s = true → answersDutiful s.segAnswers s.cmdByteCount.toNat = true) →
    ∃ t, exec .startdma s = .next t ∧
      ((t.opstat = 0x00 ∧ t.dma = .status ∧ t.lastStop = lastStopAfter s.dma s.lastStop)
        ∨ (t.opstat = 0x02 ∧ bufferValid s = false ∧ t.dma = .inactive ∧ t.lastStop = .starting)
        ∨ (t.opstat = 0x03 ∧ t.dma = .inactive ∧ t.lastStop = .error ∧ t.prdCount = 64))

/-- After a builder failure the engine is stopped: BM_STATUS <- 0x06 and BM_CMD <- 0x00 are always
written, LASTSTOP is 4 or 1, and BM_PRDTP and the start command are never written (R207). -/
def Obligations.FailedStartStopsEngine : Prop :=
  ∀ s t : State, exec .startdma s = .next t → t.opstat ≠ 0x00 →
    t.bmTrace = s.bmTrace ++ stopWritesFrom s.dma ++ [.write .status 0x06, .write .cmd 0x00] ∧
    t.dma = .inactive ∧ (t.lastStop.code = 4 ∨ t.lastStop.code = 1) ∧
    (t.lastStop.code = 4 ↔ t.opstat = 0x03) ∧
    t.engine.prdtp = s.engine.prdtp ∧ t.engine.cmd = 0

/-- After a successful start the engine holds the table base, the start command of the direction, and is
active; ERR and INT were cleared only if a program was stopped (R202, R204, R206, R215, R267). -/
def Obligations.SuccessfulStartProgramsEngine : Prop :=
  ∀ s t : State, exec .startdma s = .next t → t.opstat = 0x00 →
    t.engine.prdtp = s.prdBase &&& 0xFFFFFFFC#32 ∧
    t.engine.cmd = (if s.cmdFlags.getLsbD 0 then 0x09 else 0x01) ∧
    (s.dma ≠ .inactive ∨ s.engine.cmd.getLsbD 0 = false → t.engine.active = true) ∧
    t.engine.err = (decide (s.dma = .inactive) && s.engine.err) ∧
    t.engine.int = (decide (s.dma = .inactive) && s.engine.int)

/-- STOPDMA: word 0x00000021; from Inactive it writes no engine register and leaves LASTSTOP, else it
clears the status, halts the engine and records the state it left; OPSTAT takes 0 and nothing else
changes (R202, R203). -/
def Obligations.StopdmaHaltsAndRecords : Prop :=
  decode 0x00000021#32 = .ok .stopdma ∧
  ∀ s : State,
    exec .stopdma s = .next
      { s with
        engine := engineStopped s.dma s.engine
        bmTrace := s.bmTrace ++ stopWritesFrom s.dma
        lastStop := lastStopAfter s.dma s.lastStop
        dma := .inactive
        opstat := 0x00 }

/-- A second STOPDMA changes nothing, and while the block is stopped DONE cannot occur, if a program was
stopped (R203, R238). -/
def Obligations.StoppedStaysStopped : Prop :=
  ∀ s : State, ∃ t, exec .stopdma s = .next t ∧ exec .stopdma t = .next t ∧
    (s.dma ≠ .inactive → doneEnabled t = false)

/-- ONINT: word 0x00000022; outside Status only OPSTAT changes, to INT_NOT_ARMED, and the engine is not
read; in Status an error bit leaves CMD_ACTUAL and LASTSTOP 4, else CMD_ACTUAL takes CMD_BYTECOUNT and
LASTSTOP 3; then the stop (R205, R209). The count of draws after it is left open. -/
def Obligations.OnintSettlesProgram : Prop :=
  decode 0x00000022#32 = .ok .onint ∧
  ∀ s : State, ∃ d : Nat, exec .onint s = .next
    (if s.dma = .status then
      { s with
        cmdActual := if s.engine.err then s.cmdActual else s.cmdByteCount
        dma := .inactive
        lastStop := if s.engine.err then .error else .complete
        engine := { s.engine with cmd := 0, active := false, err := false, int := false }
        bmTrace := s.bmTrace ++ [.read .status, .write .status 0x06, .write .cmd 0x00]
        draws := d
        opstat := 0x00 }
    else { s with opstat := 0x05 })

/-- At most one completion per program: while no program is armed, no run of host accesses and engine
steps without a STARTDMA or a CMDRESET writes CMD_ACTUAL or leaves Inactive (R209, R210). -/
def Obligations.NoCompletionWithoutProgram : Prop :=
  ∀ (n : Nat) (s t : State), s.dma = .inactive →
    (∀ width o w, Event.write width o w ∈ s.events → o = 0x000 →
      w ≠ 0x00000020#32 ∧ w ≠ 0x00000001#32) →
    core.run n s = .next t → t.dma = .inactive ∧ t.cmdActual = s.cmdActual

/-- The block clears ERR only in a stop from a state other than Inactive: an ERR left from before a
program survives its start and DONE(e), and ONINT then reports Error (R215, R267). -/
def Obligations.StaleErrorReportedByOnint : Prop :=
  ∀ (s t : State) (e : Bool), s.dma = .inactive → s.engine.err = true → exec .startdma s = .next t →
    t.opstat = 0x00 →
    ∃ u, exec .onint (engineDone e t) = .next u ∧ u.lastStop = .error ∧ u.cmdActual = s.cmdActual

/-- An ONINT issued while the engine is still active is taken as a completion: CMD_ACTUAL takes
CMD_BYTECOUNT and the engine is halted (R266). -/
def Obligations.EarlyOnintTakenAsCompletion : Prop :=
  ∀ s t : State, exec .startdma s = .next t → t.opstat = 0x00 → s.dma ≠ .inactive ∨ s.engine.err = false →
    ∃ u, exec .onint t = .next u ∧ u.lastStop = .complete ∧ u.cmdActual = s.cmdByteCount ∧
      u.engine.cmd = 0 ∧ u.engine.active = false

/-- Host writes of any stored register during a live program leave the table, the engine and what the
engine walks unchanged (R72, R265; for an engine whose base is not PRDBASE, what it walks is log entry 23). -/
def Obligations.HostWritesLeaveProgramAlone : Prop :=
  ∀ (s : State) (r : Reg) (v : Word) (rest : List Event), regStores r = true →
    s.events = .write 32 (regOffset r) v :: rest →
    ∃ t, step s = .next t ∧ t.table = s.table ∧ t.engine = s.engine ∧ engineWalk t = engineWalk s ∧
      t.dma = s.dma

/-- While the invariant holds, the state to which STARTDMA applies the reinitialisation of the table has the
engine halted, so that it reads no entry, and the table still as it was; the table BUILD starts from is that
state's table reinitialised. So the halt stands before the rewrite (R83, R204, R211; the order of the single
writes inside the operation is not recorded, log entry 17). -/
def Obligations.TableRewrittenOnlyWhileHalted : Prop :=
  ∀ s : State, Inv s →
    (stopCore s).engine.cmd.getLsbD 0 = false ∧ (stopCore s).engine.active = false ∧
    engineWalk (stopCore s) = [] ∧ (stopCore s).table = s.table ∧
    armed s = reinitTable { stopCore s with dma := .starting } ∧ (armed s).engine = (stopCore s).engine

/-- The transitions of the state machine, each inside one operation, from Inactive or Status: a STARTDMA
that reports OK ends in Status, with LASTSTOP the program it stopped or, from Inactive, as it was; a failed
one ends in Inactive with LASTSTOP Starting (no buffer) or Error (exhaustion); STOPDMA and ONINT end in
Inactive, with LASTSTOP by what they stopped; every other operation leaves both as they were (R40, R41, R201,
R202). -/
def Obligations.StateMachineTransitions : Prop :=
  ∀ (i : Instr) (s t : State), s.dma = .inactive ∨ s.dma = .status → exec i s = .next t →
    (t.dma = .inactive ∨ t.dma = .status) ∧
    (i ∉ [.startdma, .stopdma, .onint] → t.dma = s.dma ∧ t.lastStop = s.lastStop) ∧
    (i = .startdma →
      (t.opstat = 0x00 ∧ t.dma = .status ∧ t.lastStop = (if s.dma = .status then .status else s.lastStop)) ∨
      (t.opstat = 0x02 ∧ t.dma = .inactive ∧ t.lastStop = .starting) ∨
      (t.opstat = 0x03 ∧ t.dma = .inactive ∧ t.lastStop = .error)) ∧
    (i = .stopdma → t.dma = .inactive ∧ t.lastStop = (if s.dma = .status then .status else s.lastStop)) ∧
    (i = .onint → t.dma = .inactive ∧
      t.lastStop = (if s.dma = .status then (if s.engine.err then .error else .complete) else s.lastStop))

/-! ### The whole machine -/

/-- Which operation may write what, and that no operation writes the operand registers, PRDBASE or OPR
(R22, R25, R26, R34, R35, R38, R41, R42). -/
def Obligations.OperationsWriteOnlyTheirRegisters : Prop :=
  ∀ (i : Instr) (s t : State), exec i s = .next t →
    (t.opr = s.opr ∧ t.arg0 = s.arg0 ∧ t.arg1 = s.arg1 ∧ t.arg2 = s.arg2 ∧ t.prdBase = s.prdBase ∧
      t.events = s.events ∧ t.readLog = s.readLog ∧ t.deviceIrqs = s.deviceIrqs) ∧
    (i.opcode ≠ .getxlba → t.res0 = s.res0 ∧ t.res1 = s.res1) ∧
    (i.opcode ∉ [.cmdreset, .setlba28] → t.tf = s.tf) ∧
    (i.opcode ∉ [.cmdreset, .setxlba, .xzero] → t.xl = s.xl) ∧
    (i.opcode ≠ .cmdreset →
      t.cmdFlags = s.cmdFlags ∧ t.cmdPosition = s.cmdPosition ∧ t.cmdByteCount = s.cmdByteCount) ∧
    (i.opcode ∉ [.cmdreset, .onint] → t.cmdActual = s.cmdActual) ∧
    (i.opcode ≠ .startdma →
      (∀ a, memByte t.table a = memByte s.table a) ∧ t.prdCount = s.prdCount ∧
      t.segAnswers = s.segAnswers ∧ t.segTrace = s.segTrace) ∧
    (i.opcode ∉ [.startdma, .stopdma, .onint] →
      t.dma = s.dma ∧ t.lastStop = s.lastStop ∧ t.engine = s.engine ∧ t.bmTrace = s.bmTrace ∧
      t.draws = s.draws)

/-- An event the spec allows never stops the machine, whatever the state and the operands, as long as the
provider meets its duties: errors are result codes (R230). -/
def Obligations.AllowedEventsNeverStop : Prop :=
  ∀ (s : State) (e : Event) (rest : List Event), s.events = e :: rest → eventAllowed s e = true →
    answersDutiful s.segAnswers s.cmdByteCount.toNat = true → ∃ t, step s = .next t

/-- DONE(e) where it is enabled: ACTIVE 0, INT 1, ERR sticky, the device's interrupt to the host, and
nothing else (R215, R236); where it is not enabled it cannot occur (R238). That the interrupt is a count is
the model's choice, log entry 13; that an event where DONE cannot occur is refused by name is log entry 12. -/
def Obligations.DoneStepEndsTransfer : Prop :=
  ∀ (s : State) (e : Bool) (rest : List Event), s.events = .done e :: rest →
    if s.engine.cmd.getLsbD 0 = true ∧ s.engine.active = true then
      step s = .next { s with
        events := rest
        engine := { s.engine with active := false, int := true, err := s.engine.err || e }
        deviceIrqs := s.deviceIrqs + 1 }
    else step s = .refused .doneNotEnabled

/-- The host's own write of an engine register: refused while the block holds a program, and refused
where it would start the engine (R272). Else it does to the engine what R215 says of such a write and nothing
else: a status write clears ERR and INT where it has a 1, a halting command write stores the command and
clears ACTIVE, a table-base write stores bits [31:2] (R264). That the host reaches the engine by events, the
two names of the refusals, and that the 8-bit command register takes the low 8 bits are log entry 10. -/
def Obligations.HostEngineWriteDuty : Prop :=
  ∀ (s : State) (r : BmReg) (v : Word) (rest : List Event), s.events = .bmWrite r v :: rest →
    (s.dma = .status → step s = .refused .hostWritesEngine) ∧
    (s.dma ≠ .status → r = .cmd → v.getLsbD 0 = true → step s = .refused .hostStartsEngine) ∧
    (s.dma ≠ .status → r = .cmd → v.getLsbD 0 = false →
      step s = .next { s with events := rest, engine :=
        { s.engine with cmd := BitVec.ofNat 8 (v.toNat % 2 ^ 8), active := false } }) ∧
    (s.dma ≠ .status → r = .status →
      step s = .next { s with events := rest, engine :=
        { s.engine with err := s.engine.err && !v.getLsbD 1, int := s.engine.int && !v.getLsbD 2 } }) ∧
    (s.dma ≠ .status → r = .prdtp →
      step s = .next { s with events := rest, engine :=
        { s.engine with prdtp := BitVec.ofNat 32 (v.toNat / 4 * 4) } })

/-- The host's own read of an engine register: of the status register ACTIVE, ERR and INT at bits 0, 1 and
2 with bits 7:3 free (R215); no side effect on the block or the engine (R82). That the host reaches the engine
by events, and that the command register and the table base read back as the engine holds them, which no rule
states, are the model's, log entry 10; the count of draws is log entry 7. -/
def Obligations.EngineReadHasNoSideEffect : Prop :=
  ∀ (s : State) (r : BmReg) (rest : List Event), s.events = .bmRead r :: rest →
    ∃ v : Word, step s = .next { s with events := rest, readLog := s.readLog ++ [v],
                                        draws := if r = .status then s.draws + 1 else s.draws } ∧
      (r = .cmd → v.toNat = s.engine.cmd.toNat) ∧ (r = .prdtp → v = s.engine.prdtp) ∧
      (r = .status → v.toNat < 2 ^ 8 ∧ v.toNat % 8
        = s.engine.active.toNat + s.engine.err.toNat * 2 + s.engine.int.toNat * 4)

/-- The whole life of a transfer, after the host met its boot duty (engine halted, no stale error): the
host issues STARTDMA, the engine ends with the error draw e, the host issues ONINT. For a provider that
covers the transfer in at most 64 pieces the three steps happen, and they leave the block Inactive, the
outcome in LASTSTOP, the byte count in CMD_ACTUAL exactly if there was no error, and the engine halted
and clean (R204, R205, R208, R215, R264; the count of device interrupts is log entry 13). -/
def Obligations.TransferRunsToItsOutcome : Prop :=
  ∀ (s : State) (gs : List Segment) (rest : List SegAnswer) (e : Bool) (evs : List Event),
    s.dma = .inactive → s.engine.cmd.getLsbD 0 = false → s.engine.err = false →
    bufferValid s = true → (∀ g ∈ gs, segmentPlaced g = true) → totalBytes gs = s.cmdByteCount.toNat →
    s.segAnswers = gs.map some ++ rest → (chainPieces gs).length ≤ 64 →
    s.events = .write 32 0x000 0x00000020#32 :: .done e :: .write 32 0x000 0x00000022#32 :: evs →
    ∃ t, core.run 3 s = .next t ∧ t.events = evs ∧ t.opr = 0x00000022#32 ∧ t.opstat = 0x00 ∧
      t.dma = .inactive ∧ t.lastStop = (if e then .error else .complete) ∧
      t.cmdActual = (if e then s.cmdActual else s.cmdByteCount) ∧
      t.prdCount.toNat = (chainPieces gs).length ∧
      t.engine = { cmd := 0, active := false, err := false, int := false, prdtp := s.prdBase &&& 0xFFFFFFFC#32 } ∧
      t.deviceIrqs = s.deviceIrqs + 1

/-- The invariant holds right after power-on reset; that the engine is then halted and clean is the model's
choice, log entry 3. -/
def Obligations.ResetMeetsInvariant : Prop := Inv State.reset

/-- Every step keeps the invariant: the state machine settled, the codes and counts in range, the
hardwired bits 0, the table in its canonical form, and the engine started exactly while the block holds
a program (R27, R28, R38, R40, R134, R200, R201, R231, R272). -/
def Obligations.StepKeepsInvariant : Prop := ∀ s t : State, Inv s → step s = .next t → Inv t

/-- After power-on, beside an engine in any state, every register of the map reads 0 (R47). That every
byte of the PRD table, which R48 leaves unspecified, is the opaque value of its offset is the model's choice,
log entry 2. -/
def Obligations.PowerOnValues : Prop :=
  ∀ e : Engine, (∀ r : Reg, regRead r (State.powerOn e) = 0) ∧ (State.powerOn e).engine = e ∧
    ∀ a, memByte (State.powerOn e).table a = Config.prdPowerOn a

/-! ### Assembly lines (spec/30_encoding.md) -/

/-- The accesses every assembly line stands for: `WR` and `RD` by register name or offset, the nine
operation lines with their words (SETLBA28 is 0x10 | unit << 8, SETXLBA 0x11 | unit << 8 | xcmd << 16), and
the four pseudo-instructions (R110, R111). How the text of a line is read is not said here (log entry 14). -/
def Obligations.AssembledAccesses : Prop :=
  (∀ (r : Reg) (o v : Nat), o % 4 = 0 → o < 0x400 → v < 2 ^ 32 →
    assemble (.wr (.named r) v) = some [.write 32 (regOffset r) (BitVec.ofNat 32 v)] ∧
    assemble (.wr (.offset o) v) = some [.write 32 o (BitVec.ofNat 32 v)] ∧
    assemble (.rd (.named r)) = some [.read 32 (regOffset r)] ∧
    assemble (.rd (.offset o)) = some [.read 32 o]) ∧
  assemble .nop = some [.write 32 0x000 0x00000000#32] ∧
  assemble .cmdreset = some [.write 32 0x000 0x00000001#32] ∧
  assemble .getxlba = some [.write 32 0x000 0x00000012#32] ∧
  assemble .xzero = some [.write 32 0x000 0x00000013#32] ∧
  assemble .startdma = some [.write 32 0x000 0x00000020#32] ∧
  assemble .stopdma = some [.write 32 0x000 0x00000021#32] ∧
  assemble .onint = some [.write 32 0x000 0x00000022#32] ∧
  assemble .xlbard = some [.write 32 0x000 0x00000012#32, .read 32 0x014, .read 32 0x018] ∧
  ∀ u x lba hi lo cnt f p n : Nat, u < 16 → x < 256 → lba < 2 ^ 32 → hi < 2 ^ 32 → lo < 2 ^ 32 →
    cnt < 2 ^ 32 → f < 2 ^ 32 → p < 2 ^ 32 → n < 2 ^ 32 →
    assemble (.setlba28 u) = some [.write 32 0x000 (BitVec.ofNat 32 (0x10 + u * 2 ^ 8))] ∧
    assemble (.setxlba u x) = some [.write 32 0x000 (BitVec.ofNat 32 (0x11 + u * 2 ^ 8 + x * 2 ^ 16))] ∧
    assemble (.lba28 u lba) = some [.write 32 0x008 (BitVec.ofNat 32 lba),
      .write 32 0x000 (BitVec.ofNat 32 (0x10 + u * 2 ^ 8))] ∧
    assemble (.lba48 u hi lo cnt x) = some [.write 32 0x008 (BitVec.ofNat 32 lo),
      .write 32 0x00C (BitVec.ofNat 32 hi), .write 32 0x010 (BitVec.ofNat 32 cnt),
      .write 32 0x000 (BitVec.ofNat 32 (0x11 + u * 2 ^ 8 + x * 2 ^ 16))] ∧
    assemble (.xfer f p n) = some [.write 32 0x024 (BitVec.ofNat 32 f), .write 32 0x028 (BitVec.ofNat 32 p),
      .write 32 0x02C (BitVec.ofNat 32 n), .write 32 0x000 0x00000020#32]

/-! ### The engine's reads of the table -/

/-- The engine reads the PRD table only while it runs: with START or ACTIVE 0 it walks no entry, moves
nothing and runs past nothing; so it does after every stop of a program (R83, R202, R215). -/
def Obligations.HaltedEngineReadsNoEntry : Prop :=
  ∀ s : State,
    (s.engine.cmd.getLsbD 0 = false ∨ s.engine.active = false →
      engineWalk s = [] ∧ engineTraffic s = [] ∧ walkRunsPast s = false) ∧
    (s.dma ≠ .inactive → ∃ t, exec .stopdma s = .next t ∧ engineWalk t = [] ∧ engineTraffic t = [])
end

