-- ==== Sys2Proof/Laws/Memory.lean ====
section
/-! SUPPORT. The laws of the PRD table storage: what a read gives after a write, and that every operation keeps
the canonical form. -/

namespace Sys2Proof.Machine

theorem memory_wf_iff (m : Memory) :
    m.wf = true ↔ m.Pairwise (fun a b => a.1 < b.1) ∧ ∀ c ∈ m, c.1 < prdTableBytes := by
  simp [Memory.wf]

theorem memGet?_memSet (m : Memory) (a x : Nat) (b : Byte) :
    memGet? (memSet m a b) x = if x = a then some b else memGet? m x := by
  induction m with
  | nil => by_cases h : x = a <;> simp [memSet, memGet?, h]
  | cons c m ih =>
    obtain ⟨y, v⟩ := c
    by_cases h1 : a < y
    · by_cases h : x = a <;> simp [memSet, memGet?, h1, h]
    · by_cases h2 : a = y
      · subst h2; by_cases h : x = a <;> simp [memSet, memGet?, h]
      · simp only [memSet, h1, h2, if_false, memGet?, ih]
        by_cases h : x = a
        · subst h; simp [h2]
        · simp [h]

/-- Reading a byte after storing one. -/
theorem memByte_memSet (m : Memory) (a x : Nat) (b : Byte) :
    memByte (memSet m a b) x = if x = a then b else memByte m x := by
  by_cases h : x = a <;> simp [memByte, memGet?_memSet, h]

/-- Reading a byte after `MemWrite(a, n, v)`: byte `x - a` of the value inside the range, the old byte
outside it (R11). -/
theorem memByte_memWrite (n : Nat) : ∀ (m : Memory) (a v x : Nat),
    memByte (memWrite m a n v) x
      = if a ≤ x ∧ x < a + n then BitVec.ofNat 8 (v / 256 ^ (x - a)) else memByte m x := by
  induction n with
  | zero => intro m a v x; have h : ¬ (a ≤ x ∧ x < a + 0) := by omega
            simp only [memWrite, h, if_false]
  | succ n ih =>
    intro m a v x
    simp only [memWrite, ih, memByte_memSet]
    by_cases h0 : x = a
    · subst h0; simp
    · by_cases h1 : a + 1 ≤ x ∧ x < a + 1 + n
      · have h2 : a ≤ x ∧ x < a + (n + 1) := by omega
        have h3 : x - a = (x - (a + 1)) + 1 := by omega
        simp only [h1, h2, and_self, if_true]
        rw [h3, pow_succ', Nat.div_div_eq_div_mul]
      · have h2 : ¬ (a ≤ x ∧ x < a + (n + 1)) := by omega
        simp only [h1, h2, h0, if_false]

theorem memRead_congr (n : Nat) : ∀ (m m' : Memory) (a : Nat),
    (∀ x, a ≤ x → x < a + n → memByte m' x = memByte m x) → memRead m' a n = memRead m a n := by
  induction n with
  | zero => intro m m' a _; rfl
  | succ n ih =>
    intro m m' a h
    simp only [memRead]
    rw [h a (by omega) (by omega), ih m m' (a + 1) (fun x h1 h2 => h x (by omega) (by omega))]

theorem memRead_of_bytes (n : Nat) : ∀ (m : Memory) (a v : Nat),
    (∀ x, a ≤ x → x < a + n → memByte m x = BitVec.ofNat 8 (v / 256 ^ (x - a))) →
    memRead m a n = v % 256 ^ n := by
  induction n with
  | zero => intro m a v _; simp [memRead, Nat.mod_one]
  | succ n ih =>
    intro m a v h
    have h0 := h a (by omega) (by omega)
    have h1 := ih m (a + 1) (v / 256) (fun x h1 h2 => by
      rw [h x (by omega) (by omega), Nat.div_div_eq_div_mul, ← pow_succ']
      congr 2; congr 1; omega)
    have e : v % 256 ^ (n + 1) = v % 256 + 256 * (v / 256 % 256 ^ n) := by rw [pow_succ', Nat.mod_mul]
    simp [memRead, h1, h0, e]

/-- `MemRead` of what `MemWrite` stored gives the value truncated to the width (R11). -/
theorem memRead_memWrite_same (m : Memory) (a n v : Nat) :
    memRead (memWrite m a n v) a n = v % 256 ^ n :=
  memRead_of_bytes n _ a v (fun x h1 h2 => by simp [memByte_memWrite, h1, h2])

/-- `MemRead` away from a `MemWrite` gives what it gave before. -/
theorem memRead_memWrite_disjoint (m : Memory) (a n v a' n' : Nat) (h : a' + n' ≤ a ∨ a + n ≤ a') :
    memRead (memWrite m a n v) a' n' = memRead m a' n' :=
  memRead_congr n' _ _ a' (fun x h1 h2 => by
    have h3 : ¬ (a ≤ x ∧ x < a + n) := by omega
    simp [memByte_memWrite, h3])

theorem memSet_mem (m : Memory) (a : Nat) (b : Byte) : ∀ c ∈ memSet m a b, c = (a, b) ∨ c ∈ m := by
  induction m with
  | nil => intro c hc; simpa [memSet] using hc
  | cons d m ih =>
    obtain ⟨y, v⟩ := d
    intro c hc
    by_cases h1 : a < y
    · simpa [memSet, h1] using hc
    · by_cases h2 : a = y
      · subst h2
        simp only [memSet, lt_irrefl, if_false, if_true, List.mem_cons] at hc ⊢
        rcases hc with hc | hc
        · left; exact hc
        · right; right; exact hc
      · simp only [memSet, h1, h2, if_false, List.mem_cons] at hc ⊢
        rcases hc with hc | hc
        · right; left; exact hc
        · rcases ih c hc with h | h
          · left; exact h
          · right; right; exact h

/-- Storing a byte inside the storage keeps the canonical form. -/
theorem memSet_wf (m : Memory) (a : Nat) (b : Byte) (ha : a < prdTableBytes) (h : m.wf = true) :
    (memSet m a b).wf = true := by
  rw [memory_wf_iff] at h ⊢
  refine ⟨?_, fun c hc => ?_⟩
  · have hp := h.1
    clear h
    induction m with
    | nil => simp [memSet]
    | cons d m ih =>
      obtain ⟨y, v⟩ := d
      rw [List.pairwise_cons] at hp
      by_cases h1 : a < y
      · simp only [memSet, h1, if_true]
        refine List.pairwise_cons.mpr ⟨fun c hc => ?_, List.pairwise_cons.mpr hp⟩
        rcases List.mem_cons.mp hc with rfl | hc
        · exact h1
        · exact lt_trans h1 (hp.1 c hc)
      · by_cases h2 : a = y
        · subst h2
          simp only [memSet, lt_irrefl, if_false, if_true]
          exact List.pairwise_cons.mpr ⟨fun c hc => hp.1 c hc, hp.2⟩
        · simp only [memSet, h1, h2, if_false]
          refine List.pairwise_cons.mpr ⟨fun c hc => ?_, ih hp.2⟩
          rcases memSet_mem m a b c hc with rfl | hc
          · show y < a; omega
          · exact hp.1 c hc
  · rcases memSet_mem m a b c hc with rfl | hc
    · exact ha
    · exact h.2 c hc

/-- `MemWrite` inside the storage keeps the canonical form. -/
theorem memWrite_wf (n : Nat) : ∀ (m : Memory) (a v : Nat), a + n ≤ prdTableBytes → m.wf = true →
    (memWrite m a n v).wf = true := by
  induction n with
  | zero => intro m a v _ h; exact h
  | succ n ih =>
    intro m a v ha h
    exact ih _ _ _ (by omega) (memSet_wf m a _ (by omega) h)

/-- Writing one of the 64 entries keeps the canonical form. -/
theorem writeEntry_wf (i addr len flags : Nat) (m : Memory) (hi : i < prdMax) (h : m.wf = true) :
    (writeEntry i addr len flags m).wf = true := by
  have hi' : i < 64 := hi
  have e : prdTableBytes = 512 := rfl
  exact memWrite_wf _ _ _ _ (by omega) (memWrite_wf _ _ _ _ (by omega) (memWrite_wf _ _ _ _ (by omega) h))

/-- Reinitialising the table keeps the canonical form. -/
theorem stopEntries_wf (n : Nat) : ∀ (m : Memory), n ≤ prdMax → m.wf = true → (stopEntries n m).wf = true := by
  induction n with
  | zero => intro m _ h; exact h
  | succ n ih => intro m hn h; exact ih _ (by omega) (writeEntry_wf n 0 0 eotFlag m (by omega) h)

/-- The entry just written reads back as its truncated fields (R39, R160). -/
theorem entryAt_writeEntry_same (i addr len flags : Nat) (m : Memory) :
    entryAt (writeEntry i addr len flags m) i
      = { bufferPtr := BitVec.ofNat 32 addr, byteCount := BitVec.ofNat 16 len, flags := BitVec.ofNat 16 flags } := by
  have h1 : memRead (writeEntry i addr len flags m) (8 * i) 4 = addr % 256 ^ 4 := by
    unfold writeEntry
    rw [memRead_memWrite_disjoint _ _ _ _ _ _ (by omega), memRead_memWrite_disjoint _ _ _ _ _ _ (by omega),
      memRead_memWrite_same]
  have h2 : memRead (writeEntry i addr len flags m) (8 * i + 4) 2 = len % 256 ^ 2 := by
    unfold writeEntry
    rw [memRead_memWrite_disjoint _ _ _ _ _ _ (by omega), memRead_memWrite_same]
  have h3 : memRead (writeEntry i addr len flags m) (8 * i + 6) 2 = flags % 256 ^ 2 := by
    unfold writeEntry
    rw [memRead_memWrite_same]
  have e1 : BitVec.ofNat 32 (addr % 256 ^ 4) = BitVec.ofNat 32 addr := by
    apply BitVec.eq_of_toNat_eq; simp
  have e2 : ∀ x : Nat, BitVec.ofNat 16 (x % 256 ^ 2) = BitVec.ofNat 16 x := by
    intro x; apply BitVec.eq_of_toNat_eq; simp
  simp only [entryAt, h1, h2, h3, e1, e2]

/-- Writing one entry leaves every other entry alone. -/
theorem entryAt_writeEntry_ne (i j addr len flags : Nat) (m : Memory) (h : j ≠ i) :
    entryAt (writeEntry i addr len flags m) j = entryAt m j := by
  unfold entryAt writeEntry
  rw [memRead_memWrite_disjoint _ _ _ _ _ _ (by omega), memRead_memWrite_disjoint _ _ _ _ _ _ (by omega),
    memRead_memWrite_disjoint _ _ _ _ _ _ (by omega), memRead_memWrite_disjoint _ _ _ _ _ _ (by omega),
    memRead_memWrite_disjoint _ _ _ _ _ _ (by omega), memRead_memWrite_disjoint _ _ _ _ _ _ (by omega),
    memRead_memWrite_disjoint _ _ _ _ _ _ (by omega), memRead_memWrite_disjoint _ _ _ _ _ _ (by omega),
    memRead_memWrite_disjoint _ _ _ _ _ _ (by omega)]

/-- After the n stop entries are written, an entry is the stop entry or what it was (R161). -/
theorem entryAt_stopEntries (n : Nat) : ∀ (m : Memory) (i : Nat),
    entryAt (stopEntries n m) i = if i < n then stopEntry else entryAt m i := by
  induction n with
  | zero => intro m i; simp [stopEntries]
  | succ n ih =>
    intro m i
    rw [stopEntries, ih]
    by_cases h : i = n
    · subst h
      simp only [lt_irrefl, if_false, entryAt_writeEntry_same, lt_add_iff_pos_right, zero_lt_one, if_true]
      rfl
    · have e : (i < n + 1) = (i < n) := by apply propext; omega
      simp only [entryAt_writeEntry_ne _ _ _ _ _ _ h, e]

end Sys2Proof.Machine
end

