-- ==== Sys2Proof/Laws/State.lean ====
section
/-! SUPPORT. One lemma per field of State and named update, so that no later proof unfolds an update. -/

namespace Sys2Proof.Machine

@[simp] theorem finish_opr (c : ResultCode) (s : State) : (finish c s).opr = s.opr := rfl
@[simp] theorem finish_opstat (c : ResultCode) (s : State) : (finish c s).opstat = c.code := rfl
@[simp] theorem finish_arg0 (c : ResultCode) (s : State) : (finish c s).arg0 = s.arg0 := rfl
@[simp] theorem finish_arg1 (c : ResultCode) (s : State) : (finish c s).arg1 = s.arg1 := rfl
@[simp] theorem finish_arg2 (c : ResultCode) (s : State) : (finish c s).arg2 = s.arg2 := rfl
@[simp] theorem finish_res0 (c : ResultCode) (s : State) : (finish c s).res0 = s.res0 := rfl
@[simp] theorem finish_res1 (c : ResultCode) (s : State) : (finish c s).res1 = s.res1 := rfl
@[simp] theorem finish_dma (c : ResultCode) (s : State) : (finish c s).dma = s.dma := rfl
@[simp] theorem finish_lastStop (c : ResultCode) (s : State) : (finish c s).lastStop = s.lastStop := rfl
@[simp] theorem finish_prdCount (c : ResultCode) (s : State) : (finish c s).prdCount = s.prdCount := rfl
@[simp] theorem finish_prdBase (c : ResultCode) (s : State) : (finish c s).prdBase = s.prdBase := rfl
@[simp] theorem finish_cmdFlags (c : ResultCode) (s : State) : (finish c s).cmdFlags = s.cmdFlags := rfl
@[simp] theorem finish_cmdPosition (c : ResultCode) (s : State) : (finish c s).cmdPosition = s.cmdPosition := rfl
@[simp] theorem finish_cmdByteCount (c : ResultCode) (s : State) : (finish c s).cmdByteCount = s.cmdByteCount := rfl
@[simp] theorem finish_cmdActual (c : ResultCode) (s : State) : (finish c s).cmdActual = s.cmdActual := rfl
@[simp] theorem finish_tf (c : ResultCode) (s : State) : (finish c s).tf = s.tf := rfl
@[simp] theorem finish_xl (c : ResultCode) (s : State) : (finish c s).xl = s.xl := rfl
@[simp] theorem finish_table (c : ResultCode) (s : State) : (finish c s).table = s.table := rfl
@[simp] theorem finish_engine (c : ResultCode) (s : State) : (finish c s).engine = s.engine := rfl
@[simp] theorem finish_events (c : ResultCode) (s : State) : (finish c s).events = s.events := rfl
@[simp] theorem finish_segAnswers (c : ResultCode) (s : State) : (finish c s).segAnswers = s.segAnswers := rfl
@[simp] theorem finish_draws (c : ResultCode) (s : State) : (finish c s).draws = s.draws := rfl
@[simp] theorem finish_bmTrace (c : ResultCode) (s : State) : (finish c s).bmTrace = s.bmTrace := rfl
@[simp] theorem finish_segTrace (c : ResultCode) (s : State) : (finish c s).segTrace = s.segTrace := rfl
@[simp] theorem finish_readLog (c : ResultCode) (s : State) : (finish c s).readLog = s.readLog := rfl
@[simp] theorem finish_deviceIrqs (c : ResultCode) (s : State) : (finish c s).deviceIrqs = s.deviceIrqs := rfl

@[simp] theorem bmWrite_opr (r : BmReg) (v : Word) (s : State) : (bmWrite r v s).opr = s.opr := rfl
@[simp] theorem bmWrite_opstat (r : BmReg) (v : Word) (s : State) : (bmWrite r v s).opstat = s.opstat := rfl
@[simp] theorem bmWrite_arg0 (r : BmReg) (v : Word) (s : State) : (bmWrite r v s).arg0 = s.arg0 := rfl
@[simp] theorem bmWrite_arg1 (r : BmReg) (v : Word) (s : State) : (bmWrite r v s).arg1 = s.arg1 := rfl
@[simp] theorem bmWrite_arg2 (r : BmReg) (v : Word) (s : State) : (bmWrite r v s).arg2 = s.arg2 := rfl
@[simp] theorem bmWrite_res0 (r : BmReg) (v : Word) (s : State) : (bmWrite r v s).res0 = s.res0 := rfl
@[simp] theorem bmWrite_res1 (r : BmReg) (v : Word) (s : State) : (bmWrite r v s).res1 = s.res1 := rfl
@[simp] theorem bmWrite_dma (r : BmReg) (v : Word) (s : State) : (bmWrite r v s).dma = s.dma := rfl
@[simp] theorem bmWrite_lastStop (r : BmReg) (v : Word) (s : State) : (bmWrite r v s).lastStop = s.lastStop := rfl
@[simp] theorem bmWrite_prdCount (r : BmReg) (v : Word) (s : State) : (bmWrite r v s).prdCount = s.prdCount := rfl
@[simp] theorem bmWrite_prdBase (r : BmReg) (v : Word) (s : State) : (bmWrite r v s).prdBase = s.prdBase := rfl
@[simp] theorem bmWrite_cmdFlags (r : BmReg) (v : Word) (s : State) : (bmWrite r v s).cmdFlags = s.cmdFlags := rfl
@[simp] theorem bmWrite_cmdPosition (r : BmReg) (v : Word) (s : State) : (bmWrite r v s).cmdPosition = s.cmdPosition := rfl
@[simp] theorem bmWrite_cmdByteCount (r : BmReg) (v : Word) (s : State) : (bmWrite r v s).cmdByteCount = s.cmdByteCount := rfl
@[simp] theorem bmWrite_cmdActual (r : BmReg) (v : Word) (s : State) : (bmWrite r v s).cmdActual = s.cmdActual := rfl
@[simp] theorem bmWrite_tf (r : BmReg) (v : Word) (s : State) : (bmWrite r v s).tf = s.tf := rfl
@[simp] theorem bmWrite_xl (r : BmReg) (v : Word) (s : State) : (bmWrite r v s).xl = s.xl := rfl
@[simp] theorem bmWrite_table (r : BmReg) (v : Word) (s : State) : (bmWrite r v s).table = s.table := rfl
@[simp] theorem bmWrite_engine (r : BmReg) (v : Word) (s : State) : (bmWrite r v s).engine = engineWrite r v s.engine := rfl
@[simp] theorem bmWrite_events (r : BmReg) (v : Word) (s : State) : (bmWrite r v s).events = s.events := rfl
@[simp] theorem bmWrite_segAnswers (r : BmReg) (v : Word) (s : State) : (bmWrite r v s).segAnswers = s.segAnswers := rfl
@[simp] theorem bmWrite_draws (r : BmReg) (v : Word) (s : State) : (bmWrite r v s).draws = s.draws := rfl
@[simp] theorem bmWrite_bmTrace (r : BmReg) (v : Word) (s : State) : (bmWrite r v s).bmTrace = s.bmTrace ++ [.write r v] := rfl
@[simp] theorem bmWrite_segTrace (r : BmReg) (v : Word) (s : State) : (bmWrite r v s).segTrace = s.segTrace := rfl
@[simp] theorem bmWrite_readLog (r : BmReg) (v : Word) (s : State) : (bmWrite r v s).readLog = s.readLog := rfl
@[simp] theorem bmWrite_deviceIrqs (r : BmReg) (v : Word) (s : State) : (bmWrite r v s).deviceIrqs = s.deviceIrqs := rfl

@[simp] theorem afterStatusRead_opr (s : State) : (afterStatusRead s).opr = s.opr := rfl
@[simp] theorem afterStatusRead_opstat (s : State) : (afterStatusRead s).opstat = s.opstat := rfl
@[simp] theorem afterStatusRead_arg0 (s : State) : (afterStatusRead s).arg0 = s.arg0 := rfl
@[simp] theorem afterStatusRead_arg1 (s : State) : (afterStatusRead s).arg1 = s.arg1 := rfl
@[simp] theorem afterStatusRead_arg2 (s : State) : (afterStatusRead s).arg2 = s.arg2 := rfl
@[simp] theorem afterStatusRead_res0 (s : State) : (afterStatusRead s).res0 = s.res0 := rfl
@[simp] theorem afterStatusRead_res1 (s : State) : (afterStatusRead s).res1 = s.res1 := rfl
@[simp] theorem afterStatusRead_dma (s : State) : (afterStatusRead s).dma = s.dma := rfl
@[simp] theorem afterStatusRead_lastStop (s : State) : (afterStatusRead s).lastStop = s.lastStop := rfl
@[simp] theorem afterStatusRead_prdCount (s : State) : (afterStatusRead s).prdCount = s.prdCount := rfl
@[simp] theorem afterStatusRead_prdBase (s : State) : (afterStatusRead s).prdBase = s.prdBase := rfl
@[simp] theorem afterStatusRead_cmdFlags (s : State) : (afterStatusRead s).cmdFlags = s.cmdFlags := rfl
@[simp] theorem afterStatusRead_cmdPosition (s : State) : (afterStatusRead s).cmdPosition = s.cmdPosition := rfl
@[simp] theorem afterStatusRead_cmdByteCount (s : State) : (afterStatusRead s).cmdByteCount = s.cmdByteCount := rfl
@[simp] theorem afterStatusRead_cmdActual (s : State) : (afterStatusRead s).cmdActual = s.cmdActual := rfl
@[simp] theorem afterStatusRead_tf (s : State) : (afterStatusRead s).tf = s.tf := rfl
@[simp] theorem afterStatusRead_xl (s : State) : (afterStatusRead s).xl = s.xl := rfl
@[simp] theorem afterStatusRead_table (s : State) : (afterStatusRead s).table = s.table := rfl
@[simp] theorem afterStatusRead_engine (s : State) : (afterStatusRead s).engine = s.engine := rfl
@[simp] theorem afterStatusRead_events (s : State) : (afterStatusRead s).events = s.events := rfl
@[simp] theorem afterStatusRead_segAnswers (s : State) : (afterStatusRead s).segAnswers = s.segAnswers := rfl
@[simp] theorem afterStatusRead_draws (s : State) : (afterStatusRead s).draws = s.draws + 1 := rfl
@[simp] theorem afterStatusRead_bmTrace (s : State) : (afterStatusRead s).bmTrace = s.bmTrace ++ [.read .status] := rfl
@[simp] theorem afterStatusRead_segTrace (s : State) : (afterStatusRead s).segTrace = s.segTrace := rfl
@[simp] theorem afterStatusRead_readLog (s : State) : (afterStatusRead s).readLog = s.readLog := rfl
@[simp] theorem afterStatusRead_deviceIrqs (s : State) : (afterStatusRead s).deviceIrqs = s.deviceIrqs := rfl

@[simp] theorem afterSegQuery_opr (pos rem : Nat) (s : State) : (afterSegQuery pos rem s).opr = s.opr := rfl
@[simp] theorem afterSegQuery_opstat (pos rem : Nat) (s : State) : (afterSegQuery pos rem s).opstat = s.opstat := rfl
@[simp] theorem afterSegQuery_arg0 (pos rem : Nat) (s : State) : (afterSegQuery pos rem s).arg0 = s.arg0 := rfl
@[simp] theorem afterSegQuery_arg1 (pos rem : Nat) (s : State) : (afterSegQuery pos rem s).arg1 = s.arg1 := rfl
@[simp] theorem afterSegQuery_arg2 (pos rem : Nat) (s : State) : (afterSegQuery pos rem s).arg2 = s.arg2 := rfl
@[simp] theorem afterSegQuery_res0 (pos rem : Nat) (s : State) : (afterSegQuery pos rem s).res0 = s.res0 := rfl
@[simp] theorem afterSegQuery_res1 (pos rem : Nat) (s : State) : (afterSegQuery pos rem s).res1 = s.res1 := rfl
@[simp] theorem afterSegQuery_dma (pos rem : Nat) (s : State) : (afterSegQuery pos rem s).dma = s.dma := rfl
@[simp] theorem afterSegQuery_lastStop (pos rem : Nat) (s : State) : (afterSegQuery pos rem s).lastStop = s.lastStop := rfl
@[simp] theorem afterSegQuery_prdCount (pos rem : Nat) (s : State) : (afterSegQuery pos rem s).prdCount = s.prdCount := rfl
@[simp] theorem afterSegQuery_prdBase (pos rem : Nat) (s : State) : (afterSegQuery pos rem s).prdBase = s.prdBase := rfl
@[simp] theorem afterSegQuery_cmdFlags (pos rem : Nat) (s : State) : (afterSegQuery pos rem s).cmdFlags = s.cmdFlags := rfl
@[simp] theorem afterSegQuery_cmdPosition (pos rem : Nat) (s : State) : (afterSegQuery pos rem s).cmdPosition = s.cmdPosition := rfl
@[simp] theorem afterSegQuery_cmdByteCount (pos rem : Nat) (s : State) : (afterSegQuery pos rem s).cmdByteCount = s.cmdByteCount := rfl
@[simp] theorem afterSegQuery_cmdActual (pos rem : Nat) (s : State) : (afterSegQuery pos rem s).cmdActual = s.cmdActual := rfl
@[simp] theorem afterSegQuery_tf (pos rem : Nat) (s : State) : (afterSegQuery pos rem s).tf = s.tf := rfl
@[simp] theorem afterSegQuery_xl (pos rem : Nat) (s : State) : (afterSegQuery pos rem s).xl = s.xl := rfl
@[simp] theorem afterSegQuery_table (pos rem : Nat) (s : State) : (afterSegQuery pos rem s).table = s.table := rfl
@[simp] theorem afterSegQuery_engine (pos rem : Nat) (s : State) : (afterSegQuery pos rem s).engine = s.engine := rfl
@[simp] theorem afterSegQuery_events (pos rem : Nat) (s : State) : (afterSegQuery pos rem s).events = s.events := rfl
@[simp] theorem afterSegQuery_segAnswers (pos rem : Nat) (s : State) : (afterSegQuery pos rem s).segAnswers = s.segAnswers.tail := rfl
@[simp] theorem afterSegQuery_draws (pos rem : Nat) (s : State) : (afterSegQuery pos rem s).draws = if s.segAnswers = [] then s.draws + 1 else s.draws := rfl
@[simp] theorem afterSegQuery_bmTrace (pos rem : Nat) (s : State) : (afterSegQuery pos rem s).bmTrace = s.bmTrace := rfl
@[simp] theorem afterSegQuery_segTrace (pos rem : Nat) (s : State) : (afterSegQuery pos rem s).segTrace = s.segTrace ++ [⟨pos, rem⟩] := rfl
@[simp] theorem afterSegQuery_readLog (pos rem : Nat) (s : State) : (afterSegQuery pos rem s).readLog = s.readLog := rfl
@[simp] theorem afterSegQuery_deviceIrqs (pos rem : Nat) (s : State) : (afterSegQuery pos rem s).deviceIrqs = s.deviceIrqs := rfl

@[simp] theorem emit_opr (i addr len : Nat) (last : Bool) (s : State) : (emit i addr len last s).opr = s.opr := rfl
@[simp] theorem emit_opstat (i addr len : Nat) (last : Bool) (s : State) : (emit i addr len last s).opstat = s.opstat := rfl
@[simp] theorem emit_arg0 (i addr len : Nat) (last : Bool) (s : State) : (emit i addr len last s).arg0 = s.arg0 := rfl
@[simp] theorem emit_arg1 (i addr len : Nat) (last : Bool) (s : State) : (emit i addr len last s).arg1 = s.arg1 := rfl
@[simp] theorem emit_arg2 (i addr len : Nat) (last : Bool) (s : State) : (emit i addr len last s).arg2 = s.arg2 := rfl
@[simp] theorem emit_res0 (i addr len : Nat) (last : Bool) (s : State) : (emit i addr len last s).res0 = s.res0 := rfl
@[simp] theorem emit_res1 (i addr len : Nat) (last : Bool) (s : State) : (emit i addr len last s).res1 = s.res1 := rfl
@[simp] theorem emit_dma (i addr len : Nat) (last : Bool) (s : State) : (emit i addr len last s).dma = s.dma := rfl
@[simp] theorem emit_lastStop (i addr len : Nat) (last : Bool) (s : State) : (emit i addr len last s).lastStop = s.lastStop := rfl
@[simp] theorem emit_prdCount (i addr len : Nat) (last : Bool) (s : State) : (emit i addr len last s).prdCount = BitVec.ofNat 8 (i + 1) := rfl
@[simp] theorem emit_prdBase (i addr len : Nat) (last : Bool) (s : State) : (emit i addr len last s).prdBase = s.prdBase := rfl
@[simp] theorem emit_cmdFlags (i addr len : Nat) (last : Bool) (s : State) : (emit i addr len last s).cmdFlags = s.cmdFlags := rfl
@[simp] theorem emit_cmdPosition (i addr len : Nat) (last : Bool) (s : State) : (emit i addr len last s).cmdPosition = s.cmdPosition := rfl
@[simp] theorem emit_cmdByteCount (i addr len : Nat) (last : Bool) (s : State) : (emit i addr len last s).cmdByteCount = s.cmdByteCount := rfl
@[simp] theorem emit_cmdActual (i addr len : Nat) (last : Bool) (s : State) : (emit i addr len last s).cmdActual = s.cmdActual := rfl
@[simp] theorem emit_tf (i addr len : Nat) (last : Bool) (s : State) : (emit i addr len last s).tf = s.tf := rfl
@[simp] theorem emit_xl (i addr len : Nat) (last : Bool) (s : State) : (emit i addr len last s).xl = s.xl := rfl
@[simp] theorem emit_table (i addr len : Nat) (last : Bool) (s : State) : (emit i addr len last s).table = writeEntry i addr len (prdFlags last) s.table := rfl
@[simp] theorem emit_engine (i addr len : Nat) (last : Bool) (s : State) : (emit i addr len last s).engine = s.engine := rfl
@[simp] theorem emit_events (i addr len : Nat) (last : Bool) (s : State) : (emit i addr len last s).events = s.events := rfl
@[simp] theorem emit_segAnswers (i addr len : Nat) (last : Bool) (s : State) : (emit i addr len last s).segAnswers = s.segAnswers := rfl
@[simp] theorem emit_draws (i addr len : Nat) (last : Bool) (s : State) : (emit i addr len last s).draws = s.draws := rfl
@[simp] theorem emit_bmTrace (i addr len : Nat) (last : Bool) (s : State) : (emit i addr len last s).bmTrace = s.bmTrace := rfl
@[simp] theorem emit_segTrace (i addr len : Nat) (last : Bool) (s : State) : (emit i addr len last s).segTrace = s.segTrace := rfl
@[simp] theorem emit_readLog (i addr len : Nat) (last : Bool) (s : State) : (emit i addr len last s).readLog = s.readLog := rfl
@[simp] theorem emit_deviceIrqs (i addr len : Nat) (last : Bool) (s : State) : (emit i addr len last s).deviceIrqs = s.deviceIrqs := rfl

@[simp] theorem reinitTable_opr (s : State) : (reinitTable s).opr = s.opr := rfl
@[simp] theorem reinitTable_opstat (s : State) : (reinitTable s).opstat = s.opstat := rfl
@[simp] theorem reinitTable_arg0 (s : State) : (reinitTable s).arg0 = s.arg0 := rfl
@[simp] theorem reinitTable_arg1 (s : State) : (reinitTable s).arg1 = s.arg1 := rfl
@[simp] theorem reinitTable_arg2 (s : State) : (reinitTable s).arg2 = s.arg2 := rfl
@[simp] theorem reinitTable_res0 (s : State) : (reinitTable s).res0 = s.res0 := rfl
@[simp] theorem reinitTable_res1 (s : State) : (reinitTable s).res1 = s.res1 := rfl
@[simp] theorem reinitTable_dma (s : State) : (reinitTable s).dma = s.dma := rfl
@[simp] theorem reinitTable_lastStop (s : State) : (reinitTable s).lastStop = s.lastStop := rfl
@[simp] theorem reinitTable_prdCount (s : State) : (reinitTable s).prdCount = 0 := rfl
@[simp] theorem reinitTable_prdBase (s : State) : (reinitTable s).prdBase = s.prdBase := rfl
@[simp] theorem reinitTable_cmdFlags (s : State) : (reinitTable s).cmdFlags = s.cmdFlags := rfl
@[simp] theorem reinitTable_cmdPosition (s : State) : (reinitTable s).cmdPosition = s.cmdPosition := rfl
@[simp] theorem reinitTable_cmdByteCount (s : State) : (reinitTable s).cmdByteCount = s.cmdByteCount := rfl
@[simp] theorem reinitTable_cmdActual (s : State) : (reinitTable s).cmdActual = s.cmdActual := rfl
@[simp] theorem reinitTable_tf (s : State) : (reinitTable s).tf = s.tf := rfl
@[simp] theorem reinitTable_xl (s : State) : (reinitTable s).xl = s.xl := rfl
@[simp] theorem reinitTable_table (s : State) : (reinitTable s).table = stopEntries prdMax s.table := by rw [reinitTable]
@[simp] theorem reinitTable_engine (s : State) : (reinitTable s).engine = s.engine := rfl
@[simp] theorem reinitTable_events (s : State) : (reinitTable s).events = s.events := rfl
@[simp] theorem reinitTable_segAnswers (s : State) : (reinitTable s).segAnswers = s.segAnswers := rfl
@[simp] theorem reinitTable_draws (s : State) : (reinitTable s).draws = s.draws := rfl
@[simp] theorem reinitTable_bmTrace (s : State) : (reinitTable s).bmTrace = s.bmTrace := rfl
@[simp] theorem reinitTable_segTrace (s : State) : (reinitTable s).segTrace = s.segTrace := rfl
@[simp] theorem reinitTable_readLog (s : State) : (reinitTable s).readLog = s.readLog := rfl
@[simp] theorem reinitTable_deviceIrqs (s : State) : (reinitTable s).deviceIrqs = s.deviceIrqs := rfl

@[simp] theorem engineDone_opr (e : Bool) (s : State) : (engineDone e s).opr = s.opr := rfl
@[simp] theorem engineDone_opstat (e : Bool) (s : State) : (engineDone e s).opstat = s.opstat := rfl
@[simp] theorem engineDone_arg0 (e : Bool) (s : State) : (engineDone e s).arg0 = s.arg0 := rfl
@[simp] theorem engineDone_arg1 (e : Bool) (s : State) : (engineDone e s).arg1 = s.arg1 := rfl
@[simp] theorem engineDone_arg2 (e : Bool) (s : State) : (engineDone e s).arg2 = s.arg2 := rfl
@[simp] theorem engineDone_res0 (e : Bool) (s : State) : (engineDone e s).res0 = s.res0 := rfl
@[simp] theorem engineDone_res1 (e : Bool) (s : State) : (engineDone e s).res1 = s.res1 := rfl
@[simp] theorem engineDone_dma (e : Bool) (s : State) : (engineDone e s).dma = s.dma := rfl
@[simp] theorem engineDone_lastStop (e : Bool) (s : State) : (engineDone e s).lastStop = s.lastStop := rfl
@[simp] theorem engineDone_prdCount (e : Bool) (s : State) : (engineDone e s).prdCount = s.prdCount := rfl
@[simp] theorem engineDone_prdBase (e : Bool) (s : State) : (engineDone e s).prdBase = s.prdBase := rfl
@[simp] theorem engineDone_cmdFlags (e : Bool) (s : State) : (engineDone e s).cmdFlags = s.cmdFlags := rfl
@[simp] theorem engineDone_cmdPosition (e : Bool) (s : State) : (engineDone e s).cmdPosition = s.cmdPosition := rfl
@[simp] theorem engineDone_cmdByteCount (e : Bool) (s : State) : (engineDone e s).cmdByteCount = s.cmdByteCount := rfl
@[simp] theorem engineDone_cmdActual (e : Bool) (s : State) : (engineDone e s).cmdActual = s.cmdActual := rfl
@[simp] theorem engineDone_tf (e : Bool) (s : State) : (engineDone e s).tf = s.tf := rfl
@[simp] theorem engineDone_xl (e : Bool) (s : State) : (engineDone e s).xl = s.xl := rfl
@[simp] theorem engineDone_table (e : Bool) (s : State) : (engineDone e s).table = s.table := rfl
@[simp] theorem engineDone_engine (e : Bool) (s : State) : (engineDone e s).engine = { s.engine with active := false, int := true, err := s.engine.err || e } := rfl
@[simp] theorem engineDone_events (e : Bool) (s : State) : (engineDone e s).events = s.events := rfl
@[simp] theorem engineDone_segAnswers (e : Bool) (s : State) : (engineDone e s).segAnswers = s.segAnswers := rfl
@[simp] theorem engineDone_draws (e : Bool) (s : State) : (engineDone e s).draws = s.draws := rfl
@[simp] theorem engineDone_bmTrace (e : Bool) (s : State) : (engineDone e s).bmTrace = s.bmTrace := rfl
@[simp] theorem engineDone_segTrace (e : Bool) (s : State) : (engineDone e s).segTrace = s.segTrace := rfl
@[simp] theorem engineDone_readLog (e : Bool) (s : State) : (engineDone e s).readLog = s.readLog := rfl
@[simp] theorem engineDone_deviceIrqs (e : Bool) (s : State) : (engineDone e s).deviceIrqs = s.deviceIrqs + 1 := rfl

end Sys2Proof.Machine
end

