-- ==== Sys2Proof/Laws/Builder.lean ====
section
/-! SUPPORT. What the builder's operations can do: the pieces of a segment (R165, R166), the emission of a segment
in closed form, and the frame of the whole build (R176). -/

namespace Sys2Proof.Machine

/-! ### The pieces of a segment -/

theorem blocksTouched_pos (g : Segment) : 1 ≤ blocksTouched g := by unfold blocksTouched; omega

@[simp] theorem segmentPieces_length (g : Segment) : (segmentPieces g).length = blocksTouched g := by
  simp [segmentPieces]

theorem segmentPieces_ne_nil (g : Segment) : segmentPieces g ≠ [] := by
  intro h
  have := congrArg List.length h
  have := blocksTouched_pos g
  simp at *
  omega

theorem boundaryAbove_gt (p : Nat) : p < boundaryAbove p := by
  have h := Nat.lt_div_mul_add (a := p) (b := block64K) (by decide)
  exact h

theorem boundaryAbove_div (p : Nat) : boundaryAbove p / block64K = p / block64K + 1 := by
  unfold boundaryAbove
  rw [← Nat.succ_mul]
  exact Nat.mul_div_cancel _ (by decide)

theorem block_start_le (p : Nat) : p / block64K * block64K ≤ p := Nat.div_mul_le_self p block64K

theorem block_start_next (p : Nat) : (p / block64K + 1) * block64K = boundaryAbove p := by
  unfold boundaryAbove; exact Nat.succ_mul _ _

theorem block_start_ge (p k : Nat) : boundaryAbove p ≤ (p / block64K + 1 + k) * block64K := by
  rw [← block_start_next]; exact Nat.mul_le_mul_right _ (Nat.le_add_right _ _)

/-- A segment that ends at or before the boundary above its start is one piece (R166). -/
theorem segmentPieces_final (p c : Nat) (hc : 1 ≤ c) (h : ¬ boundaryAbove p < p + c) :
    segmentPieces ⟨p, c⟩ = [⟨p, c⟩] := by
  have hgt := boundaryAbove_gt p
  have hle := block_start_le p
  have hnext := block_start_next p
  have hdiv : (p + c - 1) / block64K = p / block64K := by
    apply Nat.div_eq_of_lt_le
    · omega
    · rw [hnext]; omega
  have hb : blocksTouched ⟨p, c⟩ = 1 := by
    show (p + c - 1) / block64K - p / block64K + 1 = 1
    rw [hdiv]; omega
  simp only [segmentPieces, hb, List.range_one, List.map_cons, List.map_nil, pieceInBlock, Nat.add_zero, hnext]
  rw [Nat.max_eq_left hle, Nat.min_eq_left (by omega)]
  congr 2; omega

/-- A segment that extends past the boundary above its start is the piece up to the boundary and the
pieces of what lies beyond (R165). -/
theorem segmentPieces_split (p c : Nat) (h : boundaryAbove p < p + c) :
    segmentPieces ⟨p, c⟩
      = ⟨p, boundaryAbove p - p⟩ :: segmentPieces ⟨boundaryAbove p, c - (boundaryAbove p - p)⟩ := by
  have hgt := boundaryAbove_gt p
  have hle := block_start_le p
  have hend : boundaryAbove p + (c - (boundaryAbove p - p)) = p + c := by omega
  have hmono : p / block64K + 1 ≤ (p + c - 1) / block64K := by
    rw [← boundaryAbove_div]; exact Nat.div_le_div_right (by omega)
  have hb : blocksTouched ⟨p, c⟩
      = blocksTouched ⟨boundaryAbove p, c - (boundaryAbove p - p)⟩ + 1 := by
    simp only [blocksTouched, hend, boundaryAbove_div]
    omega
  rw [segmentPieces, hb, List.range_succ_eq_map, List.map_cons, List.map_map]
  congr 1
  · simp only [pieceInBlock, Nat.add_zero, block_start_next]
    rw [Nat.max_eq_left hle, Nat.min_eq_right (by omega)]
  · unfold segmentPieces
    apply List.map_congr_left
    intro k _
    have hge := block_start_ge p k
    have e1 : p / block64K + (k + 1) = p / block64K + 1 + k := by omega
    simp only [Function.comp, Nat.succ_eq_add_one, pieceInBlock, boundaryAbove_div, hend, e1]
    rw [Nat.max_eq_right (by omega), Nat.max_eq_right hge]

theorem boundaryAbove_le (p : Nat) : boundaryAbove p ≤ p + block64K :=
  Nat.add_le_add_right (block_start_le p) block64K

theorem same_block (p n : Nat) (h1 : 1 ≤ n) (h : p + n ≤ boundaryAbove p) :
    p / block64K = (p + n - 1) / block64K := by
  have hle := block_start_le p
  symm
  apply Nat.div_eq_of_lt_le
  · omega
  · rw [block_start_next]; omega

@[simp] theorem chainPieces_nil : chainPieces [] = [] := rfl

@[simp] theorem chainPieces_cons (g : Segment) (gs : List Segment) :
    chainPieces (g :: gs) = segmentPieces g ++ chainPieces gs := by simp [chainPieces]

@[simp] theorem totalBytes_nil : totalBytes [] = 0 := rfl

@[simp] theorem totalBytes_cons (g : Segment) (gs : List Segment) :
    totalBytes (g :: gs) = g.len + totalBytes gs := by simp [totalBytes]

/-! ### Emission in closed form -/

/-- The table after the pieces of a list are written from slot i on, EOT on the very last piece if
`last` says so. -/
def writePieces (last : Bool) : Nat → List Segment → Memory → Memory
  | _, [], m => m
  | i, g :: gs, m => writePieces last (i + 1) gs (writeEntry i g.addr g.len (prdFlags (last && gs.isEmpty)) m)

/-- The state after the pieces of a list are emitted from slot i on. -/
def emitPieces (last : Bool) (i : Nat) (gs : List Segment) (s : State) : State :=
  { s with table := writePieces last i gs s.table
           prdCount := if gs = [] then s.prdCount else BitVec.ofNat 8 (i + gs.length) }

@[simp] theorem emitPieces_nil (last : Bool) (i : Nat) (s : State) : emitPieces last i [] s = s := by
  simp [emitPieces, writePieces]

theorem emitPieces_cons (last : Bool) (i : Nat) (g : Segment) (gs : List Segment) (s : State) :
    emitPieces last i (g :: gs) s
      = emitPieces last (i + 1) gs (emit i g.addr g.len (last && gs.isEmpty) s) := by
  by_cases h : gs = []
  · subst h; simp [emitPieces, writePieces, emit]
  · have e : i + (gs.length + 1) = i + 1 + gs.length := by omega
    simp [emitPieces, writePieces, emit, h, e]

/-- A segment that extends past a boundary touches one block more than what lies beyond (R172). -/
theorem blocksTouched_split (p c : Nat) (h : boundaryAbove p < p + c) :
    blocksTouched ⟨p, c⟩ = blocksTouched ⟨boundaryAbove p, c - (boundaryAbove p - p)⟩ + 1 := by
  have hlen := congrArg List.length (segmentPieces_split p c h)
  rw [List.length_cons, segmentPieces_length, segmentPieces_length] at hlen
  exact hlen

theorem blocksTouched_final (p c : Nat) (hc : 1 ≤ c) (h : ¬ boundaryAbove p < p + c) :
    blocksTouched ⟨p, c⟩ = 1 := by
  have hlen := congrArg List.length (segmentPieces_final p c hc h)
  rw [segmentPieces_length] at hlen
  exact hlen

theorem emitSegment_split (last : Bool) (slots p c : Nat) (s : State) (h : boundaryAbove p < p + c) :
    emitSegment last (slots + 1) p c s
      = emitSegment last slots (boundaryAbove p) (c - (boundaryAbove p - p))
          (emit (prdMax - (slots + 1)) p (boundaryAbove p - p) false s) := by
  rw [emitSegment, if_pos h]

theorem emitSegment_final (last : Bool) (slots p c : Nat) (s : State) (h : ¬ boundaryAbove p < p + c) :
    emitSegment last (slots + 1) p c s = .written slots (emit (prdMax - (slots + 1)) p c last s) := by
  rw [emitSegment, if_neg h]

/-- Emitting one segment in closed form: all its pieces if the slots suffice, else as many as there are
slots, none of them marked (R165, R166, R167). -/
theorem emitSegment_eq (last : Bool) (slots : Nat) : ∀ (p c : Nat) (s : State), slots ≤ prdMax → 1 ≤ c →
    emitSegment last slots p c s =
      if blocksTouched ⟨p, c⟩ ≤ slots then
        .written (slots - blocksTouched ⟨p, c⟩) (emitPieces last (prdMax - slots) (segmentPieces ⟨p, c⟩) s)
      else .noSlot (emitPieces false (prdMax - slots) ((segmentPieces ⟨p, c⟩).take slots) s) := by
  induction slots with
  | zero =>
    intro p c s _ _
    have h : ¬ blocksTouched ⟨p, c⟩ ≤ 0 := by have := blocksTouched_pos ⟨p, c⟩; omega
    rw [emitSegment, if_neg h, List.take_zero, emitPieces_nil]
  | succ slots ih =>
    intro p c s hs hc
    have hi : prdMax - (slots + 1) + 1 = prdMax - slots := by omega
    by_cases hb : boundaryAbove p < p + c
    · have hgt := boundaryAbove_gt p
      have hrest : 1 ≤ c - (boundaryAbove p - p) := by omega
      have hn := blocksTouched_split p c hb
      have hne := segmentPieces_ne_nil ⟨boundaryAbove p, c - (boundaryAbove p - p)⟩
      rw [emitSegment_split _ _ _ _ _ hb, ih _ _ _ (by omega) hrest]
      by_cases hfit : blocksTouched ⟨boundaryAbove p, c - (boundaryAbove p - p)⟩ ≤ slots
      · have hfit' : blocksTouched ⟨p, c⟩ ≤ slots + 1 := by omega
        have hk : slots + 1 - blocksTouched ⟨p, c⟩
            = slots - blocksTouched ⟨boundaryAbove p, c - (boundaryAbove p - p)⟩ := by omega
        have hem : (segmentPieces ⟨boundaryAbove p, c - (boundaryAbove p - p)⟩).isEmpty = false := by
          simp [hne]
        rw [if_pos hfit, if_pos hfit', hk, segmentPieces_split p c hb, emitPieces_cons, hi, hem,
          Bool.and_false]
      · have hfit' : ¬ blocksTouched ⟨p, c⟩ ≤ slots + 1 := by omega
        rw [if_neg hfit, if_neg hfit', segmentPieces_split p c hb, List.take_succ_cons, emitPieces_cons, hi,
          Bool.false_and]
    · have hn := blocksTouched_final p c hc hb
      have hfit : blocksTouched ⟨p, c⟩ ≤ slots + 1 := by omega
      have hk : slots + 1 - blocksTouched ⟨p, c⟩ = slots := by omega
      rw [emitSegment_final _ _ _ _ _ hb, if_pos hfit, hk, segmentPieces_final p c hc hb, emitPieces_cons,
        emitPieces_nil, List.isEmpty_nil, Bool.and_true]

/-! ### The pieces of a segment, whatever their number -/

/-- Induction over the pieces of a segment, as the builder meets them: the final piece, or a piece up to
the boundary before the pieces of the rest (R165, R166). -/
theorem segmentPieces_induction (P : Nat → Nat → List Segment → Prop)
    (hfinal : ∀ p c, 1 ≤ c → p + c ≤ boundaryAbove p → P p c [⟨p, c⟩])
    (hsplit : ∀ p c L, boundaryAbove p < p + c → P (boundaryAbove p) (c - (boundaryAbove p - p)) L →
      P p c (⟨p, boundaryAbove p - p⟩ :: L)) (p c : Nat) (hc : 1 ≤ c) : P p c (segmentPieces ⟨p, c⟩) := by
  induction hn : blocksTouched ⟨p, c⟩ generalizing p c with
  | zero => have := blocksTouched_pos ⟨p, c⟩; omega
  | succ n ih =>
    have hgt := boundaryAbove_gt p
    by_cases hb : boundaryAbove p < p + c
    · have hs := blocksTouched_split p c hb
      rw [segmentPieces_split p c hb]
      exact hsplit p c _ hb (ih _ _ (by omega) (by omega))
    · rw [segmentPieces_final p c hc hb]
      exact hfinal p c hc (by omega)

/-- The pieces of a segment sum to it (R172). -/
theorem segmentPieces_total (p c : Nat) (hc : 1 ≤ c) : totalBytes (segmentPieces ⟨p, c⟩) = c := by
  refine segmentPieces_induction (fun _ c L => totalBytes L = c) ?_ ?_ p c hc
  · intro p c _ _; rfl
  · intro p c L h ih
    have hgt := boundaryAbove_gt p
    rw [totalBytes_cons, ih]
    show boundaryAbove p - p + _ = c
    omega

/-- Each piece begins where the pieces before it end (R172). -/
theorem segmentPieces_consecutive (p c : Nat) (hc : 1 ≤ c) : ∀ (k : Nat) (q : Segment),
    (segmentPieces ⟨p, c⟩)[k]? = some q → q.addr = p + totalBytes ((segmentPieces ⟨p, c⟩).take k) := by
  refine segmentPieces_induction (fun p _ L => ∀ (k : Nat) (q : Segment), L[k]? = some q → q.addr = p + totalBytes (L.take k))
    ?_ ?_ p c hc
  · intro p c _ _ k q hk
    cases k with
    | zero => simp at hk; subst hk; simp
    | succ k => simp at hk
  · intro p c L h ih k q hk
    have hgt := boundaryAbove_gt p
    cases k with
    | zero => simp at hk; subst hk; simp
    | succ k =>
      simp only [List.getElem?_cons_succ, List.take_succ_cons, totalBytes_cons] at hk ⊢
      rw [ih k q hk]
      omega

/-- Each piece has 1 to 0x10000 bytes, ends inside the segment and lies in one 64KB block (R171, R172). -/
theorem segmentPieces_bounds (p c : Nat) (hc : 1 ≤ c) : ∀ q ∈ segmentPieces ⟨p, c⟩,
    1 ≤ q.len ∧ q.len ≤ block64K ∧ q.addr + q.len ≤ p + c ∧ q.addr / block64K = (q.addr + q.len - 1) / block64K := by
  refine segmentPieces_induction (fun p c L => ∀ q ∈ L, 1 ≤ q.len ∧ q.len ≤ block64K ∧ q.addr + q.len ≤ p + c ∧
    q.addr / block64K = (q.addr + q.len - 1) / block64K) ?_ ?_ p c hc
  · intro p c hc h q hq
    have hble := boundaryAbove_le p
    have hsb := same_block p c hc h
    rw [List.mem_singleton] at hq; subst hq
    exact ⟨hc, Nat.le_of_add_le_add_left (Nat.le_trans h hble), Nat.le_refl _, hsb⟩
  · intro p c L h ih q hq
    have hgt := boundaryAbove_gt p
    have hble := boundaryAbove_le p
    have hsb := same_block p (boundaryAbove p - p) (by omega) (by omega)
    rcases List.mem_cons.mp hq with rfl | hq
    · exact ⟨Nat.le_sub_of_add_le (by omega), Nat.sub_le_iff_le_add'.mpr hble,
        by rw [Nat.add_sub_cancel' (Nat.le_of_lt hgt)]; exact Nat.le_of_lt h, hsb⟩
    · obtain ⟨h1, h2, h3, h4⟩ := ih q hq
      exact ⟨h1, h2, by omega, h4⟩

/-! ### Frames -/

theorem writePieces_wf (last : Bool) (gs : List Segment) : ∀ (i : Nat) (m : Memory),
    i + gs.length ≤ prdMax → m.wf = true → (writePieces last i gs m).wf = true := by
  induction gs with
  | nil => intro i m _ h; exact h
  | cons g gs ih =>
    intro i m hi h
    simp only [List.length_cons] at hi
    exact ih (i + 1) _ (by omega) (writeEntry_wf i _ _ _ m (by omega) h)

/-- Entries below the first slot written keep what they hold. -/
theorem entryAt_writePieces_below (last : Bool) (gs : List Segment) : ∀ (i j : Nat) (m : Memory), j < i →
    entryAt (writePieces last i gs m) j = entryAt m j := by
  induction gs with
  | nil => intro i j m _; rfl
  | cons g gs ih =>
    intro i j m h
    rw [writePieces, ih (i + 1) j _ (by omega), entryAt_writeEntry_ne _ _ _ _ _ _ (by omega)]

/-- Entries above the last slot written keep what they hold. -/
theorem entryAt_writePieces_above (last : Bool) (gs : List Segment) : ∀ (i j : Nat) (m : Memory),
    i + gs.length ≤ j → entryAt (writePieces last i gs m) j = entryAt m j := by
  induction gs with
  | nil => intro i j m _; rfl
  | cons g gs ih =>
    intro i j m h
    simp only [List.length_cons] at h
    rw [writePieces, ih (i + 1) j _ (by omega), entryAt_writeEntry_ne _ _ _ _ _ _ (by omega)]

/-- The k-th slot written holds the k-th piece, EOT on the last one if `last` says so (R160). -/
theorem entryAt_writePieces (last : Bool) (gs : List Segment) : ∀ (i k : Nat) (m : Memory) (g : Segment),
    gs[k]? = some g →
    entryAt (writePieces last i gs m) (i + k) = pieceEntry g (last && decide (k + 1 = gs.length)) := by
  induction gs with
  | nil => intro i k m g h; simp at h
  | cons g gs ih =>
    intro i k m g' h
    cases k with
    | zero =>
      simp only [List.getElem?_cons_zero, Option.some.injEq] at h
      subst h
      rw [writePieces, entryAt_writePieces_below last gs (i + 1) (i + 0) _ (by omega)]
      simp only [Nat.add_zero, entryAt_writeEntry_same, List.length_cons, pieceEntry]
      cases gs <;> cases last <;> simp [prdFlags, eotFlag]
    | succ k =>
      simp only [List.getElem?_cons_succ] at h
      have e : i + (k + 1) = i + 1 + k := by omega
      rw [writePieces, e, ih (i + 1) k _ g' h]
      simp

/-- Writing a list of pieces and then another is writing both, the marker on the second alone. -/
theorem writePieces_append (last : Bool) (gs hs : List Segment) (hne : hs ≠ []) : ∀ (i : Nat) (m : Memory),
    writePieces last (i + gs.length) hs (writePieces false i gs m) = writePieces last i (gs ++ hs) m := by
  induction gs with
  | nil => intro i m; rfl
  | cons g gs ih =>
    intro i m
    have e : i + (gs.length + 1) = i + 1 + gs.length := by omega
    have hemp : (gs ++ hs).isEmpty = false := by simp [hne]
    simp only [writePieces, List.length_cons, List.cons_append, e, Bool.false_and, hemp, Bool.and_false, ih]

/-- One round of the builder's loop: either the loop ends by the remaining count, by the provider or by a
broken duty, or one segment is emitted whole or finds no slot (R163). -/
theorem buildLoop_succ (fuel slots pos rem : Nat) (s : State) (hs : slots ≤ prdMax) :
    buildLoop (fuel + 1) slots pos rem s =
      if rem = 0 then .built { s with dma := .status }
      else match segAnswer pos rem s with
        | none => .built { afterSegQuery pos rem s with dma := .status }
        | some g =>
          if g.meetsDuty rem then
            if blocksTouched g ≤ slots then
              buildLoop fuel (slots - blocksTouched g) (pos + g.len) (rem - g.len)
                (emitPieces (rem - g.len == 0) (prdMax - slots) (segmentPieces g) (afterSegQuery pos rem s))
            else .failed .errTableExhausted
              { emitPieces false (prdMax - slots) ((segmentPieces g).take slots) (afterSegQuery pos rem s) with
                dma := .error }
          else .brokenDuty := by
  rw [buildLoop]
  by_cases h0 : rem = 0
  · simp [h0]
  · simp only [h0, if_false]
    cases hq : segAnswer pos rem s with
    | none => rfl
    | some g =>
      by_cases hd : g.meetsDuty rem
      · have hl : 1 ≤ g.len := by simp [Segment.meetsDuty] at hd; omega
        simp only [hd, if_true]
        rw [emitSegment_eq _ _ _ _ _ hs hl]
        by_cases hf : blocksTouched g ≤ slots
        · simp [hf]
        · simp [hf]
      · simp [hd]

/-- What a state can differ in after a part of the build: the table, PRDCOUNT, STATE, and the model's
record of the provider (R176). -/
def BuildFrame (s t : State) : Prop :=
  t = { s with table := t.table, prdCount := t.prdCount, dma := t.dma,
               segAnswers := t.segAnswers, draws := t.draws, segTrace := t.segTrace }

theorem BuildFrame_trans {s t u : State} (h1 : BuildFrame s t) (h2 : BuildFrame t u) : BuildFrame s u := by
  unfold BuildFrame at *
  rw [h2, h1]

theorem BuildFrame_emitPieces (last : Bool) (i : Nat) (gs : List Segment) (s : State) :
    BuildFrame s (emitPieces last i gs s) := rfl

theorem BuildFrame_afterSegQuery (pos rem : Nat) (s : State) : BuildFrame s (afterSegQuery pos rem s) := rfl

theorem BuildFrame_dma (d : DmaState) (s : State) : BuildFrame s { s with dma := d } := rfl

end Sys2Proof.Machine
end

