-- ==== Sys2Proof/Laws/Build.lean ====
section
/-! SUPPORT. The builder's loop run on the segments a provider lists: where the slots suffice and where they do
not (R163, R167, R168, R169). -/

namespace Sys2Proof.Machine

theorem BuildFrame_emitThen {s u : State} {pos rem : Nat} {last : Bool} {i : Nat} {L : List Segment}
    (h : BuildFrame (emitPieces last i L (afterSegQuery pos rem s)) u) : BuildFrame s u :=
  BuildFrame_trans (BuildFrame_trans (BuildFrame_afterSegQuery pos rem s) (BuildFrame_emitPieces _ _ _ _)) h

theorem length_le_chainPieces (gs : List Segment) : gs.length ≤ (chainPieces gs).length := by
  induction gs with
  | nil => simp
  | cons g gs ih =>
    have := blocksTouched_pos g
    simp only [chainPieces_cons, List.length_append, segmentPieces_length, List.length_cons]; omega

theorem duty_of_placed (g : Segment) (rem : Nat) (h : segmentPlaced g = true) (hr : g.len ≤ rem) :
    g.meetsDuty rem = true := by
  simp [segmentPlaced, Segment.meetsDuty] at *; omega

theorem emitPieces_twice (last : Bool) (i j : Nat) (L M : List Segment) (m : Memory) (hM : M ≠ []) (hj : j = i + L.length) :
    writePieces last j M (writePieces false i L m) = writePieces last i (L ++ M) m := by
  subst hj; exact writePieces_append last L M hM i m

/-- The loop on segments that cover the remaining count, or after which the provider ends, with a slot for
every piece: it is built, in Status, the pieces written and the marker set exactly if they cover
(R166, R168, R169). -/
theorem buildLoop_of_fitting (gs : List Segment) : ∀ (fuel slots pos rem : Nat) (s : State) (rest : List SegAnswer),
    slots ≤ 64 → slots < fuel → (∀ g ∈ gs, segmentPlaced g = true) → s.segAnswers = gs.map some ++ rest →
    (chainPieces gs).length ≤ slots →
    (totalBytes gs = rem ∨ (totalBytes gs < rem ∧ ∃ r, rest = none :: r)) →
    ∃ t, buildLoop fuel slots pos rem s = .built t ∧ t.dma = .status ∧ BuildFrame s t ∧
      t.table = writePieces (decide (totalBytes gs = rem)) (64 - slots) (chainPieces gs) s.table ∧
      t.prdCount = (if gs = [] then s.prdCount else BitVec.ofNat 8 (64 - slots + (chainPieces gs).length)) ∧
      (totalBytes gs = rem → t.segAnswers = rest) ∧ t.draws = s.draws ∧ (gs = [] → rem = 0 → t.segTrace = s.segTrace) := by
  induction gs with
  | nil =>
    intro fuel slots pos rem s rest hs hf _ ha _ htot
    obtain ⟨fuel, rfl⟩ : ∃ f, fuel = f + 1 := ⟨fuel - 1, by omega⟩
    rw [buildLoop_succ _ _ _ _ _ hs]
    by_cases h0 : rem = 0
    · subst h0
      refine ⟨{ s with dma := .status }, by rw [if_pos rfl], rfl, rfl, rfl, ?_, ?_, rfl, fun _ _ => rfl⟩
      · simp
      · intro _; simpa using ha
    · rcases htot with htot | ⟨_, r, hr⟩
      · simp at htot; omega
      · subst hr
        have hq : segAnswer pos rem s = none := by simp [segAnswer, ha]
        rw [if_neg h0]
        simp only [hq]
        refine ⟨_, rfl, rfl, rfl, ?_, ?_, ?_, ?_, ?_⟩
        · simp [writePieces]
        · simp
        · intro h; simp at h; omega
        · simp [ha]
        · intro _ h; omega
  | cons g gs ih =>
    intro fuel slots pos rem s rest hs hf hpl ha hlen htot
    obtain ⟨fuel, rfl⟩ : ∃ f, fuel = f + 1 := ⟨fuel - 1, by omega⟩
    have hg := hpl g (by simp)
    have hg1 : 1 ≤ g.len := by simp [segmentPlaced] at hg; omega
    have hb := blocksTouched_pos g
    simp only [totalBytes_cons] at htot
    simp only [chainPieces_cons, List.length_append, segmentPieces_length] at hlen
    have hrem : g.len ≤ rem := by omega
    have hq : segAnswer pos rem s = some g := by simp [segAnswer, ha]
    rw [buildLoop_succ _ _ _ _ _ hs, if_neg (by omega)]
    simp only [hq, duty_of_placed g rem hg hrem, if_true, if_pos (show blocksTouched g ≤ slots by omega)]
    set s1 := emitPieces (rem - g.len == 0) (prdMax - slots) (segmentPieces g) (afterSegQuery pos rem s) with hs1
    have ha1 : s1.segAnswers = gs.map some ++ rest := by simp [hs1, emitPieces, ha]
    obtain ⟨t, ht, hd, hfr, htab, hcnt, hans, hdr, _⟩ :=
      ih fuel (slots - blocksTouched g) (pos + g.len) (rem - g.len) s1 rest (by omega) (by omega)
      (fun g' h' => hpl g' (by simp [h'])) ha1 (by omega) (by
        rcases htot with h | ⟨h, hr⟩
        · left; omega
        · right; exact ⟨by omega, hr⟩)
    refine ⟨t, ht, hd, BuildFrame_emitThen hfr, ?_, ?_, ?_, ?_, by simp⟩
    · rw [htab]
      have e : decide (totalBytes gs = rem - g.len) = decide (totalBytes (g :: gs) = rem) := by
        simp only [totalBytes_cons]; congr 1; apply propext; omega
      have hcore : s1.table = writePieces (rem - g.len == 0) (64 - slots) (segmentPieces g) s.table := rfl
      rw [hcore, e]
      by_cases hgs : gs = []
      · subst hgs
        have e2 : (rem - g.len == 0) = decide (totalBytes [g] = rem) := by
          simp only [totalBytes_cons, totalBytes_nil]
          by_cases h : rem = g.len
          · simp [h]
          · have h1: ¬ rem - g.len = 0 := by omega
            have h2 : ¬ g.len = rem := by omega
            simp [h1, h2]
        rw [e2]; simp [writePieces]
      · have hne : chainPieces gs ≠ [] := by
          intro h
          have := length_le_chainPieces gs
          rw [h] at this; simp at this; exact hgs this
        have e2 : (rem - g.len == 0) = false := by
          have : 1 ≤ totalBytes gs := by
            cases gs with
            | nil => exact absurd rfl hgs
            | cons g' gs' =>
              have h' := hpl g' (by simp)
              simp [segmentPlaced] at h'; simp only [totalBytes_cons]; omega
          simp; omega
        rw [e2, chainPieces_cons]
        exact emitPieces_twice _ _ _ _ _ _ hne (by simp; omega)
    · rw [hcnt]
      have hs1c : s1.prdCount = BitVec.ofNat 8 (64 - slots + blocksTouched g) := by
        simp [hs1, emitPieces, segmentPieces_ne_nil]
      by_cases hgs : gs = []
      · subst hgs; simp [hs1c]
      · simp only [hgs, if_false, List.cons_ne_nil, chainPieces_cons, List.length_append, segmentPieces_length]
        congr 1; omega
    · intro h; apply hans; simp only [totalBytes_cons] at h; omega
    · rw [hdr]; simp [hs1, emitPieces, ha]

/-- The loop on segments with more pieces than slots: it fails in Error with every slot written and no
marker (R167). -/
theorem buildLoop_of_exhausting (gs : List Segment) : ∀ (fuel slots pos rem : Nat) (s : State) (rest : List SegAnswer),
    slots ≤ 64 → slots < fuel → (∀ g ∈ gs, segmentPlaced g = true) → s.segAnswers = gs.map some ++ rest →
    slots < (chainPieces gs).length → totalBytes gs ≤ rem →
    ∃ t, buildLoop fuel slots pos rem s = .failed .errTableExhausted t ∧ t.dma = .error ∧ BuildFrame s t ∧
      t.table = writePieces false (64 - slots) ((chainPieces gs).take slots) s.table ∧
      t.prdCount = (if slots = 0 then s.prdCount else 64) := by
  induction gs with
  | nil => intro fuel slots pos rem s rest hs hf _ ha h; simp at h
  | cons g gs ih =>
    intro fuel slots pos rem s rest hs hf hpl ha hlen htot
    obtain ⟨fuel, rfl⟩ : ∃ f, fuel = f + 1 := ⟨fuel - 1, by omega⟩
    have hg := hpl g (by simp)
    have hg1 : 1 ≤ g.len := by simp [segmentPlaced] at hg; omega
    have hb := blocksTouched_pos g
    simp only [totalBytes_cons] at htot
    simp only [chainPieces_cons, List.length_append, segmentPieces_length] at hlen
    have hrem : g.len ≤ rem := by omega
    have hq : segAnswer pos rem s = some g := by simp [segAnswer, ha]
    rw [buildLoop_succ _ _ _ _ _ hs, if_neg (by omega)]
    simp only [hq, duty_of_placed g rem hg hrem, if_true]
    by_cases hfit : blocksTouched g ≤ slots
    · rw [if_pos hfit]
      have hgs : gs ≠ [] := by
        intro h; subst h; simp at hlen; omega
      have e2 : (rem - g.len == 0) = false := by
          have : 1 ≤ totalBytes gs := by
            cases gs with
            | nil => exact absurd rfl hgs
            | cons g' gs' =>
              have h' := hpl g' (by simp)
              simp [segmentPlaced] at h'; simp only [totalBytes_cons]; omega
          simp; omega
      rw [e2]
      set s1 := emitPieces false (prdMax - slots) (segmentPieces g) (afterSegQuery pos rem s) with hs1
      have ha1 : s1.segAnswers = gs.map some ++ rest := by simp [hs1, emitPieces, ha]
      obtain ⟨t, ht, hd, hfr, htab, hcnt⟩ :=
        ih fuel (slots - blocksTouched g) (pos + g.len) (rem - g.len) s1 rest (by omega) (by omega)
        (fun g' h' => hpl g' (by simp [h'])) ha1 (by omega) (by omega)
      refine ⟨t, ht, hd, BuildFrame_emitThen hfr, ?_, ?_⟩
      · rw [htab]
        have hcore : s1.table = writePieces false (64 - slots) (segmentPieces g) s.table := rfl
        rw [hcore, chainPieces_cons, List.take_append, segmentPieces_length]
        have e3 : (segmentPieces g).take slots = segmentPieces g := List.take_of_length_le (by simpa using hfit)
        rw [e3]
        by_cases hne : (chainPieces gs).take (slots - blocksTouched g) = []
        · rw [hne]; simp [writePieces]
        · exact emitPieces_twice _ _ _ _ _ _ hne (by simp; omega)
      · rw [hcnt]
        have hs1c : s1.prdCount = BitVec.ofNat 8 (64 - slots + blocksTouched g) := by
          simp [hs1, emitPieces, segmentPieces_ne_nil]
        have : slots ≠ 0 := by omega
        by_cases h : slots - blocksTouched g = 0
        · have e : 64 - slots + blocksTouched g = 64 := by omega
          simp [h, this, hs1c, e]
        · simp [h, this]
    · rw [if_neg hfit]
      refine ⟨_, rfl, rfl, BuildFrame_trans (BuildFrame_trans (BuildFrame_afterSegQuery pos rem s) (BuildFrame_emitPieces _ _ _ _)) (BuildFrame_dma _ _), ?_, ?_⟩
      · have e : (chainPieces (g :: gs)).take slots = (segmentPieces g).take slots := by
          rw [chainPieces_cons, List.take_append_of_le_length]; simp; omega
        rw [e]; rfl
      · by_cases h : slots = 0
        · subst h; simp
        · have e : 64 - slots + min slots (blocksTouched g) = 64 := by omega
          simp [emitPieces, h, segmentPieces_ne_nil, e]

/-- The first answer is the one the first query meets. -/
theorem answerAt_zero (s : State) (pos rem : Nat) : answerAt s 0 ⟨pos, rem⟩ = segAnswer pos rem s := by
  unfold answerAt segAnswer
  cases h : s.segAnswers <;> simp

/-- After a query the provider's further answers are the same ones, counted from there. -/
theorem answerAt_afterSegQuery (pos rem k : Nat) (q : SegQuery) (s : State) :
    answerAt (afterSegQuery pos rem s) k q = answerAt s (k + 1) q := by
  unfold answerAt afterSegQuery
  cases h : s.segAnswers with
  | nil =>
    simp only [List.tail_nil, List.getElem?_nil, if_true, List.length_nil]
    congr 1; omega
  | cons a as =>
    simp only [List.tail_cons, List.getElem?_cons_succ, reduceCtorEq, if_false, List.length_cons]
    cases as[k]? with
    | some a => rfl
    | none => simp only; congr 1; omega

/-- The queries made from a state, with the answers that were segments: the k-th query stands behind the
bytes of the first k answers (R162, R163). -/
def QueriesFrom (pos rem : Nat) (s : State) (qs : List SegQuery) (answers : List Segment) : Prop :=
  answers.length ≤ qs.length ∧ qs.length ≤ answers.length + 1 ∧
  ∀ (k : Nat) (q : SegQuery), qs[k]? = some q →
    q.pos = pos + totalBytes (answers.take k) ∧ q.rem + totalBytes (answers.take k) = rem ∧ 1 ≤ q.rem ∧
    ∀ g, answers[k]? = some g → answerAt s k q = some g

theorem QueriesFrom_none (pos rem : Nat) (s : State) : QueriesFrom pos rem s [] [] :=
  ⟨Nat.le_refl _, Nat.le_succ _, by simp⟩

theorem QueriesFrom_last (pos rem : Nat) (s : State) (h : rem ≠ 0) : QueriesFrom pos rem s [⟨pos, rem⟩] [] := by
  refine ⟨Nat.zero_le _, Nat.le_refl _, fun k q hk => ?_⟩
  cases k with
  | zero =>
    simp only [List.getElem?_cons_zero, Option.some.injEq] at hk
    subst hk
    exact ⟨rfl, rfl, Nat.one_le_iff_ne_zero.mpr h, by simp⟩
  | succ k => simp at hk

/-- One more query, answered with a segment, in front of the queries made from the state behind it. -/
theorem QueriesFrom_cons {pos rem : Nat} {s s1 : State} {g : Segment} {qs : List SegQuery} {answers : List Segment}
    (h0 : rem ≠ 0) (hle : g.len ≤ rem) (hq : segAnswer pos rem s = some g)
    (hs : ∀ k q, answerAt s1 k q = answerAt s (k + 1) q)
    (h : QueriesFrom (pos + g.len) (rem - g.len) s1 qs answers) :
    QueriesFrom pos rem s (⟨pos, rem⟩ :: qs) (g :: answers) := by
  obtain ⟨h1, h2, h3⟩ := h
  refine ⟨Nat.succ_le_succ h1, Nat.succ_le_succ h2, fun k q hk => ?_⟩
  cases k with
  | zero =>
    simp only [List.getElem?_cons_zero, Option.some.injEq] at hk
    subst hk
    refine ⟨rfl, rfl, Nat.one_le_iff_ne_zero.mpr h0, fun g' hg => ?_⟩
    simp only [List.getElem?_cons_zero, Option.some.injEq] at hg
    rw [answerAt_zero, hq, hg]
  | succ k =>
    simp only [List.getElem?_cons_succ] at hk
    obtain ⟨h4, h5, h6, h7⟩ := h3 k q hk
    simp only [List.take_succ_cons, totalBytes_cons, List.getElem?_cons_succ]
    exact ⟨by omega, by omega, h6, fun g' hg => by rw [← hs]; exact h7 g' hg⟩

/-- What any part of the build does, whatever the provider answers: its frame, the table in its canonical
form, PRDCOUNT in range, and the queries it makes (R162, R175, R176). -/
structure BuildEffect (slots pos rem : Nat) (s t : State) : Prop where
  frame : BuildFrame s t
  table_wf : s.table.wf = true → t.table.wf = true
  count_le : s.prdCount.toNat ≤ 64 → t.prdCount.toNat ≤ 64
  queries : ∃ (qs : List SegQuery) (answers : List Segment),
    t.segTrace = s.segTrace ++ qs ∧ qs.length ≤ slots + 1 ∧ QueriesFrom pos rem s qs answers

theorem BuildEffect_of_query (slots pos rem : Nat) (s t : State) (h0 : rem ≠ 0)
    (hf : BuildFrame s t) (hw : s.table.wf = true → t.table.wf = true)
    (hc : s.prdCount.toNat ≤ 64 → t.prdCount.toNat ≤ 64) (ht : t.segTrace = s.segTrace ++ [⟨pos, rem⟩]) :
    BuildEffect slots pos rem s t :=
  ⟨hf, hw, hc, [⟨pos, rem⟩], [], ht, by simp, QueriesFrom_last pos rem s h0⟩

theorem emitPieces_count_le (last : Bool) (i : Nat) (gs : List Segment) (s : State) (h : i + gs.length ≤ 64)
    (hs : s.prdCount.toNat ≤ 64) : (emitPieces last i gs s).prdCount.toNat ≤ 64 := by
  unfold emitPieces
  by_cases hg : gs = []
  · simp only [hg, if_true]; exact hs
  · simp only [hg, if_false, BitVec.toNat_ofNat]; omega

/-- The loop's outcome for any provider: built in Status, or failed by exhaustion in Error with all 64
slots written, or a broken duty; each with the effect of `BuildEffect`. -/
theorem buildLoop_effect (fuel : Nat) : ∀ (slots pos rem : Nat) (s : State), slots ≤ 64 → slots < fuel →
    (∃ t, buildLoop fuel slots pos rem s = .built t ∧ t.dma = .status ∧ BuildEffect slots pos rem s t) ∨
    (∃ t, buildLoop fuel slots pos rem s = .failed .errTableExhausted t ∧ t.dma = .error ∧
      BuildEffect slots pos rem s t ∧ t.prdCount = (if slots = 0 then s.prdCount else 64)) ∨
    buildLoop fuel slots pos rem s = .brokenDuty := by
  induction fuel with
  | zero => intro slots pos rem s _ h; omega
  | succ fuel ih =>
    intro slots pos rem s hs hf
    rw [buildLoop_succ _ _ _ _ _ hs]
    by_cases h0 : rem = 0
    · rw [if_pos h0]
      exact .inl ⟨_, rfl, rfl, ⟨rfl, id, id, [], [], by simp, by simp, QueriesFrom_none _ _ _⟩⟩
    rw [if_neg h0]
    cases hq : segAnswer pos rem s with
    | none =>
      exact .inl ⟨_, rfl, rfl, BuildEffect_of_query _ _ _ _ _ h0 rfl id id rfl⟩
    | some g =>
      by_cases hd : g.meetsDuty rem = true
      · simp only [hd, if_true]
        have hl : 1 ≤ g.len ∧ g.len ≤ rem := by simp [Segment.meetsDuty] at hd; omega
        have hb := blocksTouched_pos g
        have hp : prdMax = 64 := rfl
        by_cases hfit : blocksTouched g ≤ slots
        · simp only [hfit, if_true]
          set s1 := emitPieces (rem - g.len == 0) (prdMax - slots) (segmentPieces g) (afterSegQuery pos rem s) with hs1
          have hw1 : s.table.wf = true → s1.table.wf = true := fun h =>
            writePieces_wf _ _ _ _ (by rw [segmentPieces_length]; omega) h
          have hc1 : s.prdCount.toNat ≤ 64 → s1.prdCount.toNat ≤ 64 := fun h =>
            emitPieces_count_le _ _ _ _ (by rw [segmentPieces_length]; omega) h
          have hstep : ∀ t, BuildEffect (slots - blocksTouched g) (pos + g.len) (rem - g.len) s1 t →
              BuildEffect slots pos rem s t := by
            rintro t ⟨h1, h2, h3, qs, answers, h4, h5, h6⟩
            refine ⟨BuildFrame_emitThen h1, fun h => h2 (hw1 h), fun h => h3 (hc1 h), ⟨pos, rem⟩ :: qs,
              g :: answers, ?_, ?_, QueriesFrom_cons h0 hl.2 hq (answerAt_afterSegQuery pos rem · · s) h6⟩
            · rw [h4]; show (s.segTrace ++ [⟨pos, rem⟩]) ++ qs = _; simp
            · simp only [List.length_cons]; omega
          rcases ih (slots - blocksTouched g) (pos + g.len) (rem - g.len) s1 (by omega) (by omega) with
            ⟨t, ht, hdm, he⟩ | ⟨t, ht, hdm, he, hcnt⟩ | ht
          · exact .inl ⟨t, ht, hdm, hstep t he⟩
          · refine .inr (.inl ⟨t, ht, hdm, hstep t he, ?_⟩)
            rw [hcnt]
            have hne : slots ≠ 0 := by omega
            rw [if_neg hne]
            by_cases hz : slots - blocksTouched g = 0
            · have hcount : s1.prdCount = BitVec.ofNat 8 (64 - slots + blocksTouched g) := by
                simp [hs1, emitPieces, segmentPieces_ne_nil]
              have e : 64 - slots + blocksTouched g = 64 := by omega
              rw [if_pos hz, hcount, e]; rfl
            · rw [if_neg hz]
          · exact .inr (.inr ht)
        · simp only [hfit, if_false]
          have hlen : ((segmentPieces g).take slots).length = slots := by
            rw [List.length_take, segmentPieces_length]; omega
          refine .inr (.inl ⟨_, rfl, rfl, BuildEffect_of_query _ _ _ _ _ h0 rfl ?_ ?_ rfl, ?_⟩)
          · intro h; exact writePieces_wf false _ (prdMax - slots) _ (by rw [hlen]; omega) h
          · intro h; exact emitPieces_count_le false (prdMax - slots) _ (afterSegQuery pos rem s) (by rw [hlen]; omega) h
          · show (emitPieces false (prdMax - slots) ((segmentPieces g).take slots) (afterSegQuery pos rem s)).prdCount = _
            unfold emitPieces
            by_cases hz : slots = 0
            · subst hz; simp
            · have hne : (segmentPieces g).take slots ≠ [] := by
                intro h; rw [h] at hlen; simp at hlen; omega
              have e : prdMax - slots + slots = 64 := by show 64 - slots + slots = 64; omega
              simp only [hne, if_false, hz, hlen, e]; rfl
      · simp only [hd, Bool.false_eq_true, if_false]
        exact .inr (.inr trivial)

/-- The build's outcome for any provider (R163, R164). -/
theorem build_effect (s : State) :
    (bufferValid s = false ∧ build s = .failed .errNullBuffer s) ∨
    (bufferValid s = true ∧
      ((∃ t, build s = .built t ∧ t.dma = .status ∧
          BuildEffect prdMax s.cmdPosition.toNat s.cmdByteCount.toNat s t) ∨
       (∃ t, build s = .failed .errTableExhausted t ∧ t.dma = .error ∧
          BuildEffect prdMax s.cmdPosition.toNat s.cmdByteCount.toNat s t ∧ t.prdCount = 64) ∨
       build s = .brokenDuty)) := by
  cases hv : bufferValid s with
  | false => exact .inl ⟨rfl, by simp [build, hv]⟩
  | true =>
    refine .inr ⟨rfl, ?_⟩
    have h := buildLoop_effect (prdMax + 1) prdMax s.cmdPosition.toNat s.cmdByteCount.toNat s (by decide) (by decide)
    simpa [build, hv] using h

end Sys2Proof.Machine
end

