-- ==== Sys2Proof/Laws/HostPort.lean ====
section
/-! SUPPORT. The register map and the host port: which register an offset names, and what each kind of event can
do (R20, R71 to R73). -/

namespace Sys2Proof.Machine

/-- Every register is found at its own offset, and no other one there (R20). -/
@[simp] theorem regAt_regOffset (r : Reg) : regAt (regOffset r) = some r := by cases r <;> decide

theorem regAt_some {o : Nat} {r : Reg} (h : regAt o = some r) : regOffset r = o := by
  have := List.find?_some h
  simpa using this

theorem regOffset_injective {r r' : Reg} (h : regOffset r = regOffset r') : r = r' := by
  have := regAt_regOffset r
  rw [h, regAt_regOffset] at this
  exact (Option.some.inj this).symm

theorem regOffset_lt (r : Reg) : regOffset r < blkBytes := by cases r <;> decide

theorem regOffset_aligned (r : Reg) : regOffset r % 4 = 0 := by cases r <;> rfl

/-- No register stands in the PRD window (R20). -/
theorem regAt_window {o : Nat} (h : prdWindow ≤ o) : regAt o = none := by
  cases hr : regAt o with
  | none => rfl
  | some r =>
    have := regAt_some hr
    have h' : 0x200 ≤ o := h
    cases r <;> simp [regOffset] at this <;> omega

/-- No register stands at an unassigned offset (R44). -/
theorem regAt_unassigned {o : Nat} (h : unassignedOffset o = true) : regAt o = none := by
  cases hr : regAt o with
  | none => rfl
  | some r =>
    have := regAt_some hr
    subst this
    cases r <;> simp [unassignedOffset, regOffset] at h

/-- A supported write access does what the offset says (R71, R72). -/
theorem hostWrite_supported (o : Nat) (v : Word) (s : State) (h4 : o % 4 = 0) (hlt : o < blkBytes) :
    hostWrite 32 o v s = blkWrite o v s := by
  simp [hostWrite, h4, hlt]

/-- A supported read access records the value the offset has (R71, R73). -/
theorem hostRead_supported (o : Nat) (s : State) (h4 : o % 4 = 0) (hlt : o < blkBytes) :
    hostRead 32 o s = .next { s with readLog := s.readLog ++ [blkRead o s] } := by
  simp [hostRead, h4, hlt]

theorem blkWrite_reg (r : Reg) (v : Word) (s : State) (h : r ≠ .opr) :
    blkWrite (regOffset r) v s = .next (regWrite r v s) := by
  unfold blkWrite
  rw [regAt_regOffset]
  cases r <;> first | exact absurd rfl h | rfl

theorem blkRead_reg (r : Reg) (s : State) : blkRead (regOffset r) s = regRead r s := by
  unfold blkRead
  rw [regAt_regOffset]

end Sys2Proof.Machine
end

