-- ==== Sys2Proof/Laws/Ops.lean ====
section
/-! SUPPORT. What each shared operation can do, said once: the result codes, the writes of the engine's registers,
`stop_core`, the start of the engine, and the fields of the state a build starts from. -/

namespace Sys2Proof.Machine

/-! ### Result codes (R231) -/

@[simp] theorem code_ok : ResultCode.ok.code = 0x00 := rfl
@[simp] theorem code_errRange : ResultCode.errRange.code = 0x01 := rfl
@[simp] theorem code_errNullBuffer : ResultCode.errNullBuffer.code = 0x02 := rfl
@[simp] theorem code_errTableExhausted : ResultCode.errTableExhausted.code = 0x03 := rfl
@[simp] theorem code_errBadOpcode : ResultCode.errBadOpcode.code = 0x04 := rfl
@[simp] theorem code_intNotArmed : ResultCode.intNotArmed.code = 0x05 := rfl

theorem code_le (c : ResultCode) : c.code.toNat ≤ 5 := by cases c <;> decide

/-! ### The engine (R215) -/

theorem engineWrite_halt (e : Engine) :
    engineWrite .cmd bmCmdHalt e = { e with cmd := 0, active := false } := rfl

theorem engineWrite_clear (e : Engine) :
    engineWrite .status bmStatusClear e = { e with err := false, int := false } := rfl

/-- The start command makes the engine active unless its START bit was 1 already (R215). -/
theorem engineWrite_start (read : Bool) (e : Engine) :
    engineWrite .cmd (bmCmdStart read) e
      = { e with cmd := if read then 0x09 else 0x01,
                 active := if e.cmd.getLsbD 0 then e.active else true } := by
  cases read <;> rfl

/-- A running engine walks its table up to the first EOT. -/
theorem engineWalk_of_running (s : State) (h : engineRunning s = true) :
    engineWalk s = throughEot (engineTable s) := if_pos h

/-- An engine that does not run reads no entry. -/
theorem engineWalk_of_halted (s : State) (h : engineRunning s = false) : engineWalk s = [] :=
  if_neg (by rw [h]; exact Bool.false_ne_true)

/-- The table behind a base that meets the placement duty is the block's. -/
theorem engineTable_of_placed (s : State) (h : placementMet s.engine.prdtp = true) :
    engineTable s = (List.range prdMax).map (entryAt s.table) := by
  unfold engineTable engineEntry
  simp only [h, if_true]

/-! ### `stop_core` (R202) -/

/-- All that `stop_core` does, in one equation. -/
theorem stopCore_frame (s : State) :
    stopCore s = { s with engine := engineStopped s.dma s.engine
                          bmTrace := s.bmTrace ++ stopWritesFrom s.dma
                          lastStop := lastStopAfter s.dma s.lastStop
                          dma := .inactive } := by
  by_cases h : s.dma = .inactive
  · cases s; simp_all [stopCore, engineStopped, stopWritesFrom, lastStopAfter]
  · simp [stopCore, engineStopped, stopWritesFrom, lastStopAfter, h, bmWrite, engineWrite, bmStatusClear,
      bmCmdHalt, stopWrites]

/-- The state BUILD starts from (R161, R204). -/
theorem armed_frame (s : State) :
    armed s = { s with engine := engineStopped s.dma s.engine
                       bmTrace := s.bmTrace ++ stopWritesFrom s.dma
                       lastStop := lastStopAfter s.dma s.lastStop
                       dma := .starting
                       table := stopEntries prdMax s.table
                       prdCount := 0 } := by
  unfold armed reinitTable
  rw [stopCore_frame]

/-- All that programming the engine does (R204, R206). -/
theorem startEngine_frame (s : State) :
    startEngine s = { s with
      engine := { s.engine with
        prdtp := s.prdBase &&& 0xFFFFFFFC#32
        cmd := if readDirection s then 0x09 else 0x01
        active := if s.engine.cmd.getLsbD 0 then s.engine.active else true }
      bmTrace := s.bmTrace ++ [.write .prdtp s.prdBase, .write .cmd (bmCmdStart (readDirection s))] } := by
  unfold startEngine bmWrite
  rw [engineWrite_start]
  simp [engineWrite, readDirection]

@[simp] theorem engineStopped_inactive (e : Engine) : engineStopped .inactive e = e := rfl

theorem engineStopped_prdtp (d : DmaState) (e : Engine) : (engineStopped d e).prdtp = e.prdtp := by
  cases d <;> rfl

/-! ### The fields of the state BUILD starts from -/

@[simp] theorem armed_opr (s : State) : (armed s).opr = s.opr := by rw [armed_frame]
@[simp] theorem armed_opstat (s : State) : (armed s).opstat = s.opstat := by rw [armed_frame]
@[simp] theorem armed_arg0 (s : State) : (armed s).arg0 = s.arg0 := by rw [armed_frame]
@[simp] theorem armed_arg1 (s : State) : (armed s).arg1 = s.arg1 := by rw [armed_frame]
@[simp] theorem armed_arg2 (s : State) : (armed s).arg2 = s.arg2 := by rw [armed_frame]
@[simp] theorem armed_res0 (s : State) : (armed s).res0 = s.res0 := by rw [armed_frame]
@[simp] theorem armed_res1 (s : State) : (armed s).res1 = s.res1 := by rw [armed_frame]
@[simp] theorem armed_prdBase (s : State) : (armed s).prdBase = s.prdBase := by rw [armed_frame]
@[simp] theorem armed_cmdFlags (s : State) : (armed s).cmdFlags = s.cmdFlags := by rw [armed_frame]
@[simp] theorem armed_cmdPosition (s : State) : (armed s).cmdPosition = s.cmdPosition := by rw [armed_frame]
@[simp] theorem armed_cmdByteCount (s : State) : (armed s).cmdByteCount = s.cmdByteCount := by rw [armed_frame]
@[simp] theorem armed_cmdActual (s : State) : (armed s).cmdActual = s.cmdActual := by rw [armed_frame]
@[simp] theorem armed_tf (s : State) : (armed s).tf = s.tf := by rw [armed_frame]
@[simp] theorem armed_xl (s : State) : (armed s).xl = s.xl := by rw [armed_frame]
@[simp] theorem armed_events (s : State) : (armed s).events = s.events := by rw [armed_frame]
@[simp] theorem armed_segAnswers (s : State) : (armed s).segAnswers = s.segAnswers := by rw [armed_frame]
@[simp] theorem armed_draws (s : State) : (armed s).draws = s.draws := by rw [armed_frame]
@[simp] theorem armed_segTrace (s : State) : (armed s).segTrace = s.segTrace := by rw [armed_frame]
@[simp] theorem armed_readLog (s : State) : (armed s).readLog = s.readLog := by rw [armed_frame]
@[simp] theorem armed_deviceIrqs (s : State) : (armed s).deviceIrqs = s.deviceIrqs := by rw [armed_frame]
@[simp] theorem armed_dma (s : State) : (armed s).dma = .starting := by rw [armed_frame]
@[simp] theorem armed_lastStop (s : State) : (armed s).lastStop = lastStopAfter s.dma s.lastStop := by rw [armed_frame]
@[simp] theorem armed_prdCount (s : State) : (armed s).prdCount = 0 := by rw [armed_frame]
@[simp] theorem armed_table (s : State) : (armed s).table = stopEntries prdMax s.table := by rw [armed_frame]
@[simp] theorem armed_engine (s : State) : (armed s).engine = engineStopped s.dma s.engine := by rw [armed_frame]
@[simp] theorem armed_bmTrace (s : State) : (armed s).bmTrace = s.bmTrace ++ stopWritesFrom s.dma := by rw [armed_frame]

/-! ### The end of a program (R205) -/

/-- The stop that follows what ONINT made of the status, in one equation. -/
theorem stopCore_settleProgram (b : BmStatus) (s : State) :
    stopCore (settleProgram b s) =
      { s with cmdActual := if b.err then s.cmdActual else s.cmdByteCount
               engine := { s.engine with cmd := 0, active := false, err := false, int := false }
               bmTrace := s.bmTrace ++ stopWrites
               lastStop := if b.err then .error else .complete
               dma := .inactive } := by
  rw [stopCore_frame]
  unfold settleProgram
  cases b.err <;> rfl

end Sys2Proof.Machine
end

