-- ==== Sys2Proof/Laws/PerInstr.lean ====
section
/-! SUPPORT. Families of laws stated instruction by instruction, one lemma for each constructor of `Instr`. -/

namespace Sys2Proof.Laws

/-- The word of an instruction carries the match value of the instruction's own row of the opcode map, so
it selects that row and its OPC is that row's (R102, R104, R105). -/
def SelectsOwnRow.Statement (i : Instr) : Prop :=
  ∃ r ∈ opcodeTable, r.op = i.opcode ∧ r.selects (encode i) = true ∧ opcField (encode i) = opcField r.matchWord

theorem SelectsOwnRow.nop : SelectsOwnRow.Statement .nop :=
  ⟨⟨.nop, 0x00000000#32, 0xFFFFFFFF#32⟩, by decide⟩

theorem SelectsOwnRow.cmdreset : SelectsOwnRow.Statement .cmdreset :=
  ⟨⟨.cmdreset, 0x00000001#32, 0xFFFFFFFF#32⟩, by decide⟩

theorem SelectsOwnRow.setlba28 (unit : BitVec 4) : SelectsOwnRow.Statement (.setlba28 unit) :=
  ⟨⟨.setlba28, 0x00000010#32, 0xFFFFF0FF#32⟩, by decide, rfl, by revert unit; decide⟩

theorem SelectsOwnRow.setxlba (unit : BitVec 4) (xcmd : Byte) : SelectsOwnRow.Statement (.setxlba unit xcmd) :=
  ⟨⟨.setxlba, 0x00000011#32, 0xFF00F0FF#32⟩, by decide, rfl, by revert unit xcmd; decide +kernel⟩

theorem SelectsOwnRow.getxlba : SelectsOwnRow.Statement .getxlba :=
  ⟨⟨.getxlba, 0x00000012#32, 0xFFFFFFFF#32⟩, by decide⟩

theorem SelectsOwnRow.xzero : SelectsOwnRow.Statement .xzero :=
  ⟨⟨.xzero, 0x00000013#32, 0xFFFFFFFF#32⟩, by decide⟩

theorem SelectsOwnRow.startdma : SelectsOwnRow.Statement .startdma :=
  ⟨⟨.startdma, 0x00000020#32, 0xFFFFFFFF#32⟩, by decide⟩

theorem SelectsOwnRow.stopdma : SelectsOwnRow.Statement .stopdma :=
  ⟨⟨.stopdma, 0x00000021#32, 0xFFFFFFFF#32⟩, by decide⟩

theorem SelectsOwnRow.onint : SelectsOwnRow.Statement .onint :=
  ⟨⟨.onint, 0x00000022#32, 0xFFFFFFFF#32⟩, by decide⟩

end Sys2Proof.Laws
end

