-- ==== Sys2Proof/Laws/Sequencer.lean ====
section
/-! SUPPORT. What STARTDMA can do, said once for every state and every provider (R204, R207). -/

namespace Sys2Proof.Machine

@[simp] theorem bufferValid_armed (s : State) : bufferValid (armed s) = bufferValid s := by
  unfold bufferValid
  rw [armed_frame]

/-- STARTDMA fails for want of a buffer, starts the engine on what BUILD left, stops it after an
exhausted table, or meets a broken duty of the provider. -/
theorem execStartdma_cases (s : State) :
    (bufferValid s = false ∧ execStartdma s = .next (finish .errNullBuffer (stopCore (armed s)))) ∨
    (bufferValid s = true ∧
      ((∃ b, execStartdma s = .next (finish .ok (startEngine b)) ∧ b.dma = .status ∧
          BuildEffect prdMax s.cmdPosition.toNat s.cmdByteCount.toNat (armed s) b) ∨
       (∃ b, execStartdma s = .next (finish .errTableExhausted (stopCore b)) ∧ b.dma = .error ∧
          BuildEffect prdMax s.cmdPosition.toNat s.cmdByteCount.toNat (armed s) b ∧ b.prdCount = 64) ∨
       execStartdma s = .refused .providerDuty)) := by
  have hp : (armed s).cmdPosition = s.cmdPosition := by rw [armed_frame]
  have hc : (armed s).cmdByteCount = s.cmdByteCount := by rw [armed_frame]
  have h := build_effect (armed s)
  rw [bufferValid_armed, hp, hc] at h
  rcases h with ⟨hv, hb⟩ | ⟨hv, ⟨b, hb, h1, h2⟩ | ⟨b, hb, h1, h2, h3⟩ | hb⟩
  · exact .inl ⟨hv, by rw [execStartdma, hb]⟩
  · exact .inr ⟨hv, .inl ⟨b, by rw [execStartdma, hb], h1, h2⟩⟩
  · exact .inr ⟨hv, .inr (.inl ⟨b, by rw [execStartdma, hb], h1, h2, h3⟩)⟩
  · exact .inr ⟨hv, .inr (.inr (by rw [execStartdma, hb]))⟩

/-- STARTDMA without a buffer (R164, R207). -/
theorem execStartdma_noBuffer (s : State) (hv : bufferValid s = false) :
    exec .startdma s = .next (finish .errNullBuffer (stopCore (armed s))) := by
  have h : build (armed s) = .failed .errNullBuffer (armed s) := by
    rw [build, bufferValid_armed, hv]; rfl
  show execStartdma s = _
  rw [execStartdma, h]

/-- STARTDMA with a buffer and a byte count of 0 (R170). -/
theorem execStartdma_zeroLength (s : State) (hv : bufferValid s = true) (h0 : s.cmdByteCount = 0) :
    exec .startdma s = .next (finish .ok (startEngine { armed s with dma := .status })) := by
  have e : s.cmdByteCount.toNat = 0 := by rw [h0]; rfl
  have h : build (armed s) = .built { armed s with dma := .status } := by
    rw [build, bufferValid_armed, if_pos hv, armed_cmdByteCount, e, buildLoop, if_pos rfl]
  show execStartdma s = _
  rw [execStartdma, h]

/-- What STARTDMA leaves alone when it completes: everything but OPSTAT, DMASTATE, the table, the engine
and the model's own records. -/
theorem execStartdma_frame (s t : State) (h : execStartdma s = .next t) :
    t = { s with opstat := t.opstat, dma := t.dma, lastStop := t.lastStop, prdCount := t.prdCount,
                 table := t.table, engine := t.engine, segAnswers := t.segAnswers, draws := t.draws,
                 bmTrace := t.bmTrace, segTrace := t.segTrace } := by
  rcases execStartdma_cases s with ⟨_, he⟩ | ⟨_, ⟨b, he, _, hb⟩ | ⟨b, he, _, hb, _⟩ | he⟩
  · rw [he] at h; cases h
    rw [stopCore_frame, armed_frame]
    generalize stopEntries prdMax s.table = m
    rfl
  · rw [he] at h; cases h
    have hf := hb.frame
    unfold BuildFrame at hf
    rw [hf, startEngine_frame, armed_frame]; rfl
  · rw [he] at h; cases h
    have hf := hb.frame
    unfold BuildFrame at hf
    rw [hf, stopCore_frame, armed_frame]; rfl
  · rw [he] at h; cases h

end Sys2Proof.Machine
end

