-- ==== Sys2Proof/Tests/Slice0.lean ====
section
/-! SUPPORT. Tests. Expected results are the vectors of spec/95_test_vectors.md (their ids stand in the names) or
hand calculation from the rule a comment cites. Each runs one step, or one operation, on a small state. -/

namespace Sys2Proof.Tests

open Sys2Proof.Machine

/-! ### Helpers -/

/-- The next state satisfies a test; a fault or a refusal does not. -/
def gives (o : Host.Outcome State Fault Refusal) (p : State → Bool) : Bool :=
  match o with
  | .next t => p t
  | .fault _ => false
  | .refused _ => false

/-- What a run of the machine gives, as a statement about the next state. -/
theorem exists_of_gives {o : Host.Outcome State Fault Refusal} {p : State → Bool} (h : gives o p = true) :
    ∃ t, o = .next t ∧ p t = true := by
  cases o with
  | next t => exact ⟨t, rfl, h⟩
  | fault _ => exact absurd h Bool.false_ne_true
  | refused _ => exact absurd h Bool.false_ne_true

/-- One step after the host writes a word to OPR. -/
def issued (w : Word) (s : State) : Host.Outcome State Fault Refusal := step { s with events := [.write 32 0x000 w] }

/-- The common setup of the builder vectors (section 2.5): table base, read direction, a buffer, a byte
count and the provider's answers. -/
def readyFor (count : Nat) (segs : List (Nat × Nat)) : State :=
  { State.reset with
    prdBase := 0x00100000, cmdFlags := 3, cmdByteCount := BitVec.ofNat 32 count
    segAnswers := segs.map (fun p => some ⟨p.1, p.2⟩) ++ [none] }

/-- A live program, as "start" of section 2.6 leaves the block and the engine (but for the table, whose
entries these tests do not read). -/
def live : State :=
  { readyFor 0x200 [] with
    dma := .status, prdCount := 2
    engine := { cmd := 0x09, active := true, err := false, int := false, prdtp := 0x00100000 } }

/-- The same program after DONE(e). -/
def ended (e : Bool) : State :=
  { live with engine := { cmd := 0x09, active := false, err := e, int := true, prdtp := 0x00100000 } }

/-- A host access as the one event that waits. -/
def withEvents (es : List Event) : State := { State.reset with events := es }

/-! ### Decoding: a word of every row, written out from R101 and R104, and illegal words (R106) -/

theorem test_decode_nop : decode 0x00000000#32 = .ok .nop := by decide
theorem test_decode_cmdreset : decode 0x00000001#32 = .ok .cmdreset := by decide
theorem test_decode_setlba28 : decode 0x00000110#32 = .ok (.setlba28 1) := by decide
theorem test_decode_setlba28_unit15_O13 : decode 0x00000F10#32 = .ok (.setlba28 15) := by decide
theorem test_decode_setxlba_X1 : decode 0x00250111#32 = .ok (.setxlba 1 0x25) := by decide
theorem test_decode_setxlba_O12 : decode 0x00FF0F11#32 = .ok (.setxlba 15 0xFF) := by decide
theorem test_decode_getxlba : decode 0x00000012#32 = .ok .getxlba := by decide
theorem test_decode_xzero : decode 0x00000013#32 = .ok .xzero := by decide
theorem test_decode_startdma : decode 0x00000020#32 = .ok .startdma := by decide
theorem test_decode_stopdma : decode 0x00000021#32 = .ok .stopdma := by decide
theorem test_decode_onint : decode 0x00000022#32 = .ok .onint := by decide

theorem test_decode_unassigned_O2_to_O5 :
    decode 0x00000002#32 = .error .unassignedOpc ∧ decode 0x000000FF#32 = .error .unassignedOpc ∧
    decode 0x00000014#32 = .error .unassignedOpc ∧ decode 0x00000023#32 = .error .unassignedOpc := by decide

theorem test_decode_mustBeZero_O6_to_O11 :
    decode 0x00000100#32 = .error .mustBeZeroBitSet ∧ decode 0x00001110#32 = .error .mustBeZeroBitSet ∧
    decode 0x01000011#32 = .error .mustBeZeroBitSet ∧ decode 0x00010012#32 = .error .mustBeZeroBitSet ∧
    decode 0x00000121#32 = .error .mustBeZeroBitSet ∧ decode 0x80000000#32 = .error .mustBeZeroBitSet := by decide

/-- SETXLBA with bit 12 set: bits [15:12] are must-be-zero (R105). -/
theorem test_decode_setxlba_bit12 : decode 0x00001011#32 = .error .mustBeZeroBitSet := by decide

theorem test_encode_setxlba_X5 : encode (.setxlba 2 0x24) = 0x00240211#32 := by decide

theorem test_decodeTableWord : decodeTableWord 32 0x00250111 = some (.setxlba 1 0x25) := by decide

theorem test_withFetchWord_runs :
    gives (step (State.reset.withFetchWord 32 0x12)) (fun t => t.opr == 0x12 && t.opstat == 0 && t.events == []) = true := by
  decide

/-! ### Well-formedness: each check refuses an ill-formed term -/

theorem test_access_width_refused : accessWellFormed 16 0x008 = false := by decide
theorem test_access_alignment_refused : accessWellFormed 32 0x00A = false := by decide
theorem test_access_accepted : accessWellFormed 32 0x3FC = true := by decide
theorem test_regRef_alignment_refused : (RegRef.offset 0x205).wellFormed = false := by decide
theorem test_regRef_outside_refused : (RegRef.offset 0x400).wellFormed = false := by decide
theorem test_line_register_refused : (AsmLine.rd (.offset 0x400)).wellFormed = false := by decide
theorem test_line_value_refused : (AsmLine.wr (.named .arg0) (2 ^ 32)).wellFormed = false := by decide
theorem test_line_unit_refused :
    (AsmLine.setlba28 16).wellFormed = false ∧ (AsmLine.setxlba 16 0).wellFormed = false ∧
    (AsmLine.lba28 16 0).wellFormed = false ∧ (AsmLine.lba48 16 0 0 0 0).wellFormed = false := by decide
theorem test_line_xcmd_refused :
    (AsmLine.setxlba 0 256).wellFormed = false ∧ (AsmLine.lba48 0 0 0 0 256).wellFormed = false := by decide
theorem test_line_operands_refused :
    (AsmLine.lba28 0 (2 ^ 32)).wellFormed = false ∧ (AsmLine.lba48 0 (2 ^ 32) 0 0 0).wellFormed = false ∧
    (AsmLine.lba48 0 0 (2 ^ 32) 0 0).wellFormed = false ∧ (AsmLine.lba48 0 0 0 (2 ^ 32) 0).wellFormed = false ∧
    (AsmLine.xfer (2 ^ 32) 0 0).wellFormed = false ∧ (AsmLine.xfer 0 (2 ^ 32) 0).wellFormed = false ∧
    (AsmLine.xfer 0 0 (2 ^ 32)).wellFormed = false := by decide
theorem test_segment_empty_refused : (Segment.mk 0x1000 0).meetsDuty 0x10 = false := by decide
theorem test_segment_too_long_refused : (Segment.mk 0x1000 0x11).meetsDuty 0x10 = false := by decide
theorem test_segment_past_top_refused : (Segment.mk 0xFFFFFFFF 2).meetsDuty 0x10 = false := by decide
theorem test_segment_at_top_accepted : (Segment.mk 0xFFFFFF00 0x100).meetsDuty 0x100 = true := by decide

/-! ### The LBA encoder -/

theorem test_nop_Z3 : gives (issued 0x0 { live with opr := 5, opstat := 4 })
    (fun t => t == { live with opr := 0, opstat := 0, events := [] }) = true := by decide

theorem test_cmdreset_Z1 : gives (issued 0x1
      { readyFor 0x200 [] with tf := { TaskFile.zero with command := 0xEC }, arg0 := 5 })
    (fun t => t.tf == TaskFile.zero && t.cmdFlags == 0 && t.cmdByteCount == 0 && t.prdBase == 0x00100000
      && t.arg0 == 5 && t.opstat == 0) = true := by decide

theorem test_cmdreset_Z4 : gives (issued 0x1 live)
    (fun t => regRead .dmastate t == 0x0202 && t.engine == live.engine && t.bmTrace == []) = true := by decide

theorem test_setlba28_E10 : gives (issued 0x010
      { State.reset with arg0 := 0x01020304, tf := { TaskFile.zero with devHead := 0xA0 } })
    (fun t => t.tf == { TaskFile.zero with secNum := 0x04, cylLo := 0x03, cylHi := 0x02, devHead := 0x41 }
      && t.opstat == 0) = true := by decide

theorem test_setlba28_E8 : gives (issued 0x110
      { State.reset with arg0 := 0x10000000, tf := { TaskFile.zero with secNum := 0x77 } })
    (fun t => t.tf == { TaskFile.zero with secNum := 0x77 } && t.opstat == 1) = true := by decide

theorem test_setxlba_X4 : gives (issued 0x00350011
      { State.reset with arg0 := 0x12345678, arg1 := 0xFFFF1234, arg2 := 0x12340008,
                         xl := { ExtLba.zero with features16 := 0xBEEF } })
    (fun t => t.xl == { lbaLow16 := 0x1278, lbaMid16 := 0x3456, lbaHigh16 := 0x1234, secCount16 := 0x0008,
                        features16 := 0xBEEF, device := 0x40, command := 0x35 }) = true := by decide

theorem test_setxlba_X8 : gives (issued 0x00000F11 State.reset) (fun t => t.xl.device == 0xF0) = true := by decide

theorem test_getxlba_X9 : gives (issued 0x12
      { State.reset with xl := { ExtLba.zero with lbaLow16 := 0x1122, lbaMid16 := 0x3344, lbaHigh16 := 0x5566 } })
    (fun t => t.res0 == 0x11664422 && t.res1 == 0x00005533) = true := by decide

theorem test_xzero_X10 : gives (issued 0x13
      { State.reset with xl := { lbaLow16 := 0x89EF, lbaMid16 := 0x67CD, lbaHigh16 := 0x45AB, secCount16 := 0x0100,
                                 features16 := 1, device := 0x50, command := 0x25 } })
    (fun t => t.xl == ExtLba.zero && t.opstat == 0) = true := by decide

/-! ### The host port -/

theorem test_write_cmdFlags_truncates : gives (hostWrite 32 0x024 0xFFFFFFFF State.reset)
    (fun t => regRead .cmdFlags t == 3) = true := by decide

theorem test_write_prdbase_low_bits : gives (hostWrite 32 0x020 0x00100003 State.reset)
    (fun t => regRead .prdbase t == 0x00100000) = true := by decide

theorem test_read_dmastate : gives (hostRead 32 0x01C { live with lastStop := .complete })
    (fun t => t.readLog == [0x0232]) = true := by decide

/-- The reads of P3 at 0x204: byteCount in the low half, flags in the high half (R76). -/
theorem test_window_word : blkRead 0x204 { State.reset with table := writeEntry 0 0x00030000 0x0100 0x8000 [] }
    = 0x80000100#32 := by decide

theorem test_writeEntry_bytes_B2 : writeEntry 0 0x0000FF00 0x0100 0x0000 []
    = [(0, 0x00), (1, 0xFF), (2, 0x00), (3, 0x00), (4, 0x00), (5, 0x01), (6, 0x00), (7, 0x00)] := by decide

/-! ### The builder and the sequencer -/

/-- The fields of PRD entry i, as the vectors write them. -/
def fields (t : State) (i : Nat) : Nat × Nat × Nat :=
  ((entryAt t.table i).bufferPtr.toNat, (entryAt t.table i).byteCount.toNat, (entryAt t.table i).flags.toNat)

theorem test_startdma_B9 : gives (issued 0x20 (readyFor 0x30 [(0x0001FFF0, 0x20), (0x00030000, 0x10)]))
    (fun t => t.opstat == 0 && regRead .dmastate t == 0x0302 && fields t 0 == (0x0001FFF0, 0x10, 0)
      && fields t 1 == (0x00020000, 0x10, 0) && fields t 2 == (0x00030000, 0x10, 0x8000)
      && fields t 3 == (0, 0, 0x8000)
      && t.bmTrace == [.write .prdtp 0x00100000, .write .cmd 0x09]) = true := by decide +kernel

theorem test_startdma_Q12 : gives (issued 0x20 { live with cmdFlags := 1 })
    (fun t => t.opstat == 2 && regRead .dmastate t == 0x0010 && t.engine.cmd == 0 && !t.engine.active
      && fields t 63 == (0, 0, 0x8000)
      && t.bmTrace == [.write .status 0x06, .write .cmd 0x00, .write .status 0x06, .write .cmd 0x00]) = true := by
  decide +kernel

/-- B7: a segment that ends at 2^32, which is a boundary, is one piece; B4: a whole block has count 0. -/
theorem test_emit_B7_B4 :
    (match emitSegment true 64 0xFFFFFF00 0x100 State.reset with
      | .written n t => n == 63 && fields t 0 == (0xFFFFFF00, 0x100, 0x8000)
      | .noSlot _ => false) = true ∧
    (match emitSegment true 64 0x00020000 0x10000 State.reset with
      | .written n t => n == 63 && fields t 0 == (0x00020000, 0, 0x8000)
      | .noSlot _ => false) = true := by decide +kernel

theorem test_pieces_B5 : segmentPieces ⟨0x00018000, 0x20000⟩
    = [⟨0x00018000, 0x8000⟩, ⟨0x00020000, 0x10000⟩, ⟨0x00030000, 0x8000⟩] := by decide +kernel

/-- B13: 65 pieces are needed (R172). -/
theorem test_blocksTouched_B13 : blocksTouched ⟨0x00008000, 0x400000⟩ = 65 := by decide +kernel

theorem test_stopdma_Q4 : gives (issued 0x21 live)
    (fun t => regRead .dmastate t == 0x0220 && t.cmdActual == 0 && t.engine.cmd == 0 && !t.engine.active
      && t.bmTrace == [.write .status 0x06, .write .cmd 0x00]) = true := by decide

theorem test_stopdma_Q6 : gives (issued 0x21 State.reset)
    (fun t => t == { State.reset with opr := 0x21 }) = true := by decide

theorem test_onint_Q1 : gives (issued 0x22 (ended false))
    (fun t => regRead .dmastate t == 0x0230 && t.cmdActual == 0x200 && t.opstat == 0
      && t.engine == { cmd := 0, active := false, err := false, int := false, prdtp := 0x00100000 }) = true := by decide

theorem test_onint_Q3 : gives (issued 0x22 (ended true))
    (fun t => regRead .dmastate t == 0x0240 && t.cmdActual == 0 && !t.engine.err) = true := by decide

theorem test_done_step : gives (step { live with events := [.done true] })
    (fun t => t.engine == (ended true).engine && t.deviceIrqs == 1) = true := by decide

/-! ### Assembly lines -/

/-- The lines of P2 and P3 (R110, R111). -/
theorem test_assemble_lines :
    assembleText "LBA48 1, 0x4567, 0x89ABCDEF, 0x100, 0x25".toList
      = some [.write 32 0x008 0x89ABCDEF, .write 32 0x00C 0x4567, .write 32 0x010 0x100, .write 32 0x000 0x00250111] ∧
    assembleText "  XLBARD ; read back".toList
      = some [.write 32 0x000 0x12, .read 32 0x014, .read 32 0x018] ∧
    assembleText "RD 0x214".toList = some [.read 32 0x214] ∧
    assembleText "; a comment".toList = some [] := by decide +kernel

theorem test_assemble_refused :
    assembleText "SETLBA28 16".toList = none ∧ assembleText "WR CMD_FLAGS 3".toList = none ∧
    assembleText "RD 0x402".toList = none ∧ assembleText "HALT".toList = none := by decide +kernel

/-! ### Witnesses: concrete states and operands that meet the hypotheses of the statements, named after them -/

theorem witness_EncodeOfDecode : decode 0x00FF0F11#32 = .ok (.setxlba 15 0xFF) := by decide

theorem witness_OpcodeRowsDisjoint :
    ⟨.setlba28, 0x00000010#32, 0xFFFFF0FF#32⟩ ∈ opcodeTable ∧
    (OpcodeRow.mk .setlba28 0x00000010#32 0xFFFFF0FF#32).selects 0x00000F10#32 = true := by decide

/-- Both sides occur, at the edges of the fields: unit 15 is legal, bit 12 is not. -/
theorem witness_LegalWordsDecode : illegalWord 0x00000F10 = false ∧ illegalWord 0x00001010 = true ∧
    illegalWord 0x00FF0F11 = false ∧ illegalWord 0x01000011 = true ∧ illegalWord 0x23 = true := by decide

theorem witness_IllegalWordReported :
    (withEvents [.write 32 0x000 0x80000000#32]).events = [.write 32 0x000 0x80000000#32] ∧
    illegalWord (0x80000000#32).toNat = true := by decide

theorem witness_StepRunsDecodedOperation :
    (withEvents [.write 32 0x000 0x00000022#32]).events = [.write 32 0x000 0x00000022#32] ∧
    decode 0x00000022#32 = .ok .onint := by decide

theorem witness_NopChangesOnlyOpstat : (0x00000100#32).toNat % 2 ^ 8 = 0 ∧ (0x00000100#32) ≠ 0#32 := by decide

theorem witness_CmdresetIdempotent :
    (withEvents [.write 32 0x000 0x00000001#32, .write 32 0x000 0x00000001#32]).events
      = .write 32 0x000 0x00000001#32 :: .write 32 0x000 0x00000001#32 :: [] := by decide

theorem witness_Lba28ReadBack : ({ State.reset with arg0 := 0x0FFFFFFF } : State).arg0.toNat < 2 ^ 28 ∧
    (1 : BitVec 4).toNat ≤ 1 := by decide

theorem witness_XlbaRoundTrip : gives (exec (.setxlba 1 0x25) { State.reset with arg0 := 0x89ABCDEF, arg1 := 0x4567 })
    (fun t => gives (exec .getxlba { State.reset with xl := t.xl }) (fun r => r.res0 == 0x89ABCDEF && r.res1 == 0x4567))
    = true := by decide

theorem witness_RegisterStoresAndReadsBack : regStores .cmdFlags = true ∧
    (withEvents [.write 32 0x024 7, .read 32 0x024]).events
      = .write 32 (regOffset .cmdFlags) 7 :: .read 32 (regOffset .cmdFlags) :: [] := by decide

/-- Each clause: an unassigned offset at either edge of its runs, a read-only register, the window. -/
theorem witness_IgnoredWritesAndZeroReads :
    unassignedOffset 0x034 = true ∧ unassignedOffset 0x03C = true ∧ unassignedOffset 0x064 = true ∧
    unassignedOffset 0x07C = true ∧ unassignedOffset 0x09C = true ∧ unassignedOffset 0x1FC = true ∧
    (withEvents [.read 32 0x1FC]).events = [.read 32 0x1FC] ∧
    (withEvents [.write 32 0x030 1]).events = [.write 32 (regOffset .cmdActual) 1] ∧
    (0x200 ≤ 0x3FC ∧ 0x3FC < 0x400 ∧ 0x3FC % 4 = 0) ∧
    (withEvents [.write 32 0x3FC 1]).events = [.write 32 0x3FC 1] := by decide

/-- Each clause: all 29 registers, the last word of the window, an unassigned offset. -/
theorem witness_HostReadHasNoSideEffect :
    (registerImage State.reset).length = allRegs.length ∧
    (∀ p ∈ registerImage live, p.1 % 4 = 0 ∧ p.1 < 0x400 ∧ ∃ r ∈ allRegs, regOffset r = p.1) ∧
    (0x3FC % 4 = 0 ∧ 0x3FC < 0x400 ∧ 0x200 ≤ 0x3FC) ∧ unassignedOffset 0x1FC = true ∧
    (withEvents [.read 32 0x3FC]).events = [.read 32 0x3FC] := by decide

theorem witness_PrdWindowShowsEntries : 127 < 128 ∧ 63 < 64 ∧
    (withEvents [.read 32 0x3FC]).events = [.read 32 (0x200 + 4 * 127)] := by decide

theorem witness_UnsupportedAccessRefused : (16 ≠ 32 ∨ 0x008 % 4 ≠ 0) ∧ (32 ≠ 32 ∨ 0x009 % 4 ≠ 0) ∧
    (withEvents [.write 16 0x008 0]).events = [.write 16 0x008 0] ∧
    (withEvents [.read 32 0x009]).events = [.read 32 0x009] := by decide

theorem witness_AccessOutsideBlkSpaceFaults : 0x400 % 4 = 0 ∧ 0x400 ≤ 0x400 ∧
    (withEvents [.read 32 0x400]).events = [.read 32 0x400] ∧
    (withEvents [.write 32 0x400 0]).events = [.write 32 0x400 0] := by decide

/-- A segment of two blocks with exactly two slots left. -/
theorem witness_SegmentSplitsAtBoundaries : 2 ≤ 64 ∧ 1 ≤ 0x200 ∧ 0xFF00 + 0x200 ≤ 2 ^ 32 ∧
    (0xFF00 + 0x200 - 1) / 2 ^ 16 - 0xFF00 / 2 ^ 16 + 1 ≤ 2 := by decide

/-- A transfer that covers, one whose provider ends early, and one of 65 pieces (B12, B17, B13). -/
theorem witness_BuildFailsExactlyWhenExhausted :
    (bufferValid (readyFor 0x400000 [(0, 0x400000)]) = true ∧ segmentPlaced ⟨0, 0x400000⟩ = true ∧
      (readyFor 0x400000 [(0, 0x400000)]).segAnswers = [⟨0, 0x400000⟩].map some ++ [none] ∧
      totalBytes [⟨0, 0x400000⟩] = (readyFor 0x400000 [(0, 0x400000)]).cmdByteCount.toNat ∧
      (chainPieces [⟨0, 0x400000⟩]).length ≤ 64) ∧
    (totalBytes [⟨0x1000, 0x100⟩] < (readyFor 0x200 [(0x1000, 0x100)]).cmdByteCount.toNat ∧
      (readyFor 0x200 [(0x1000, 0x100)]).segAnswers = [⟨0x1000, 0x100⟩].map some ++ [none]) ∧
    (segmentPlaced ⟨0x8000, 0x400000⟩ = true ∧
      (readyFor 0x400000 [(0x8000, 0x400000)]).segAnswers = [⟨0x8000, 0x400000⟩].map some ++ [none] ∧
      ¬ (chainPieces [⟨0x8000, 0x400000⟩]).length ≤ 64) := by decide +kernel

/-- B9, which meets the placement duty too: also for `EngineWalksExactlyTheTransfer`. -/
theorem witness_StartdmaBuildsChain : let s := readyFor 0x30 [(0x0001FFF0, 0x20), (0x00030000, 0x10)]
    let gs : List Segment := [⟨0x0001FFF0, 0x20⟩, ⟨0x00030000, 0x10⟩]
    bufferValid s = true ∧ (∀ g ∈ gs, segmentPlaced g = true) ∧ totalBytes gs = s.cmdByteCount.toNat ∧
    s.segAnswers = gs.map some ++ [none] ∧ (chainPieces gs).length ≤ 64 := by decide +kernel

theorem witness_EngineWalksExactlyTheTransfer : let s := readyFor 0x30 [(0x0001FFF0, 0x20), (0x00030000, 0x10)]
    let gs : List Segment := [⟨0x0001FFF0, 0x20⟩, ⟨0x00030000, 0x10⟩]
    bufferValid s = true ∧ (∀ g ∈ gs, segmentPlaced g = true) ∧ totalBytes gs = s.cmdByteCount.toNat ∧ gs ≠ [] ∧
    s.segAnswers = gs.map some ++ [none] ∧ (chainPieces gs).length ≤ 64 ∧ placementMet s.prdBase = true ∧
    (s.dma ≠ .inactive ∨ s.engine.cmd.getLsbD 0 = false) := by
  decide +kernel

/-- B17, and 64 entries written before the provider ends. -/
theorem witness_EarlyEndLeavesNoMarker :
    (let s := readyFor 0x200 [(0x1000, 0x100)];
      bufferValid s = true ∧ segmentPlaced ⟨0x1000, 0x100⟩ = true ∧
      totalBytes [⟨0x1000, 0x100⟩] < s.cmdByteCount.toNat ∧
      s.segAnswers = [⟨0x1000, 0x100⟩].map some ++ none :: [] ∧ (chainPieces [⟨0x1000, 0x100⟩]).length < 64 ∧
      placementMet s.prdBase = true ∧ (s.dma ≠ .inactive ∨ s.engine.cmd.getLsbD 0 = false)) ∧
    (let s := readyFor 0x400001 [(0, 0x400000)];
      segmentPlaced ⟨0, 0x400000⟩ = true ∧ totalBytes [⟨0, 0x400000⟩] < s.cmdByteCount.toNat ∧
      s.segAnswers = [⟨0, 0x400000⟩].map some ++ none :: [] ∧ (chainPieces [⟨0, 0x400000⟩]).length = 64) := by
  decide +kernel

theorem witness_ZeroLengthStartsOnStopTable :
    bufferValid (readyFor 0 []) = true ∧ (readyFor 0 []).cmdByteCount = 0 := by decide

theorem witness_NullBufferRejected : bufferValid { live with cmdFlags := 1 } = false := by decide

/-- B9 completes with two queries, the second behind the bytes of the first answer. -/
theorem witness_SegmentQueriesBounded : ∃ t,
    exec .startdma (readyFor 0x30 [(0x0001FFF0, 0x20), (0x00030000, 0x10)]) = .next t ∧
    (t.segTrace == [⟨0, 0x30⟩, ⟨0x20, 0x10⟩]) = true :=
  exists_of_gives (p := fun t => t.segTrace == [⟨0, 0x30⟩, ⟨0x20, 0x10⟩]) (by decide +kernel)

theorem witness_BuildTouchesNoEngineRegister :
    build (readyFor 0 []) = .built { readyFor 0 [] with dma := .status } ∧
    build State.reset = .failed .errNullBuffer State.reset := by decide +kernel

/-- After one good segment an empty one: the duty 1 <= len is broken. -/
theorem witness_BrokenProviderDutyRefused : let s := readyFor 0x200 [(0x1000, 0x100), (0x2000, 0)]
    bufferValid s = true ∧ segmentPlaced ⟨0x1000, 0x100⟩ = true ∧
    totalBytes [⟨0x1000, 0x100⟩] < s.cmdByteCount.toNat ∧ (chainPieces [⟨0x1000, 0x100⟩]).length ≤ 64 ∧
    s.segAnswers = [⟨0x1000, 0x100⟩].map some ++ some ⟨0x2000, 0⟩ :: [none] ∧
    (Segment.mk 0x2000 0).meetsDuty (s.cmdByteCount.toNat - totalBytes [⟨0x1000, 0x100⟩]) = false := by decide +kernel

theorem witness_StartdmaCompletes : let s := readyFor 0x30 [(0x0001FFF0, 0x20), (0x00030000, 0x10)]
    bufferValid s = true ∧ answersDutiful s.segAnswers s.cmdByteCount.toNat = true := by decide

theorem witness_FailedStartStopsEngine :
    ∃ t, exec .startdma { live with cmdFlags := 1 } = .next t ∧ t.opstat ≠ 0x00 :=
  ⟨_, execStartdma_noBuffer _ rfl, by decide⟩

theorem witness_SuccessfulStartProgramsEngine :
    ∃ t, exec .startdma (readyFor 0 []) = .next t ∧ t.opstat = 0x00 ∧ (readyFor 0 []).engine.cmd.getLsbD 0 = false :=
  ⟨_, execStartdma_zeroLength _ rfl rfl, rfl, rfl⟩

theorem witness_StoppedStaysStopped : live.dma ≠ .inactive := by decide

theorem witness_NoCompletionWithoutProgram :
    let s := withEvents [.write 32 0x000 0x00000022#32, .write 32 0x000 0x00000021#32]
    s.dma = .inactive ∧
    (s.events.all (fun e => match e with
      | .write _ o w => o != 0x000 || (w != 0x00000020#32 && w != 0x00000001#32)
      | _ => true)) = true ∧
    gives (core.run 2 s) (fun _ => true) = true := by decide

/-- Q10: the engine's ERR is 1 before the start. -/
theorem witness_StaleErrorReportedByOnint :
    ∃ s t : State, s.dma = .inactive ∧ s.engine.err = true ∧ exec .startdma s = .next t ∧ t.opstat = 0x00 :=
  ⟨{ readyFor 0 [] with engine := { Engine.haltedClean with err := true } }, _, rfl, rfl,
    execStartdma_zeroLength _ rfl rfl, rfl⟩

/-- Each side of the hypothesis: a first start on a clean engine, and a restart of a live program. -/
theorem witness_EarlyOnintTakenAsCompletion :
    (∃ t, exec .startdma (readyFor 0 []) = .next t ∧ t.opstat = 0x00 ∧ (readyFor 0 []).engine.err = false) ∧
    (∃ t, exec .startdma { live with cmdByteCount := 0 } = .next t ∧ t.opstat = 0x00 ∧ live.dma ≠ .inactive) :=
  ⟨⟨_, execStartdma_zeroLength _ rfl rfl, rfl, rfl⟩, ⟨_, execStartdma_zeroLength _ rfl rfl, rfl, by decide⟩⟩

theorem witness_HostWritesLeaveProgramAlone : regStores .prdbase = true ∧
    ({ live with events := [.write 32 0x020 0] } : State).events = [.write 32 (regOffset .prdbase) 0] := by decide

/-- The invariant holds of a live program: also for `TableRewrittenOnlyWhileHalted`. -/
theorem witness_StepKeepsInvariant : Inv { live with events := [.write 32 0x000 0x00000021#32] } ∧
    gives (step { live with events := [.write 32 0x000 0x00000021#32] }) (fun t => t.dma == .inactive) = true := by
  constructor
  · constructor <;> decide
  · decide

theorem witness_TableRewrittenOnlyWhileHalted : Inv live := by constructor <;> decide

/-- Each clause, from either state: an encoder operation, a start, a failed start, a stop, an ONINT. -/
theorem witness_StateMachineTransitions : (live.dma = .status ∧ State.reset.dma = .inactive) ∧
    gives (exec .nop live) (fun t => t.dma == .status) = true ∧
    (∃ t, exec .startdma (readyFor 0 []) = .next t) ∧
    (∃ t, exec .startdma { live with cmdFlags := 1 } = .next t) ∧
    gives (exec .stopdma live) (fun t => t.dma == .inactive) = true ∧
    gives (exec .onint State.reset) (fun t => t.dma == .inactive) = true :=
  ⟨by decide, by decide, ⟨_, execStartdma_zeroLength _ rfl rfl⟩, ⟨_, execStartdma_noBuffer _ rfl⟩, by decide,
    by decide⟩

theorem witness_OperationsWriteOnlyTheirRegisters : gives (exec (.setlba28 1) State.reset) (fun _ => true) = true ∧
    gives (exec .onint live) (fun _ => true) = true := by decide

/-- One event of each kind that the spec allows. -/
theorem witness_AllowedEventsNeverStop :
    answersDutiful State.reset.segAnswers State.reset.cmdByteCount.toNat = true ∧
    eventAllowed State.reset (.write 32 0x3FC 0) = true ∧ eventAllowed State.reset (.read 32 0x3FC) = true ∧
    eventAllowed State.reset (.bmWrite .status 6) = true ∧ eventAllowed State.reset (.bmRead .cmd) = true ∧
    answersDutiful { live with segAnswers := [none] }.segAnswers live.cmdByteCount.toNat = true ∧
    eventAllowed { live with segAnswers := [none] } (.done true) = true := by decide

/-- Both branches: an active engine and a halted one. -/
theorem witness_DoneStepEndsTransfer :
    (live.engine.cmd.getLsbD 0 = true ∧ live.engine.active = true) ∧
    ¬ (State.reset.engine.cmd.getLsbD 0 = true ∧ State.reset.engine.active = true) ∧
    (withEvents [.done false]).events = [.done false] := by decide

/-- Each clause: a live program; a start from Inactive; a halt, a clear and a table base from Inactive. -/
theorem witness_HostEngineWriteDuty : live.dma = .status ∧ State.reset.dma ≠ .status ∧
    (0x01#32).getLsbD 0 = true ∧ (0x08#32).getLsbD 0 = false ∧
    (withEvents [.bmWrite .cmd 1]).events = [.bmWrite .cmd 1] ∧
    (withEvents [.bmWrite .cmd 8]).events = [.bmWrite .cmd 8] ∧
    (withEvents [.bmWrite .status 6]).events = [.bmWrite .status 6] ∧
    (withEvents [.bmWrite .prdtp 3]).events = [.bmWrite .prdtp 3] := by decide

theorem witness_EngineReadHasNoSideEffect : (withEvents [.bmRead .status]).events = [.bmRead .status] := by decide

theorem witness_TransferRunsToItsOutcome :
    let evs : List Event := [.write 32 0x000 0x00000020#32, .done true, .write 32 0x000 0x00000022#32]
    let s := { readyFor 0x30 [(0x0001FFF0, 0x20), (0x00030000, 0x10)] with events := evs }
    let gs : List Segment := [⟨0x0001FFF0, 0x20⟩, ⟨0x00030000, 0x10⟩]
    s.dma = .inactive ∧ s.engine.cmd.getLsbD 0 = false ∧ s.engine.err = false ∧ bufferValid s = true ∧
    (∀ g ∈ gs, segmentPlaced g = true) ∧ totalBytes gs = s.cmdByteCount.toNat ∧
    s.segAnswers = gs.map some ++ [none] ∧ (chainPieces gs).length ≤ 64 ∧ s.events = evs := by decide +kernel

/-- The largest operands and the last word of the BLK space. -/
theorem witness_AssembledAccesses : 15 < 16 ∧ 255 < 256 ∧ 0xFFFFFFFF < 2 ^ 32 ∧ 0x3FC % 4 = 0 ∧ 0x3FC < 0x400 := by
  decide

/-- Each clause: a halted engine, an idle one whose START bit is still 1, and a live program to stop. -/
theorem witness_HaltedEngineReadsNoEntry : State.reset.engine.cmd.getLsbD 0 = false ∧
    ((ended false).engine.cmd.getLsbD 0 = true ∧ (ended false).engine.active = false) ∧ live.dma ≠ .inactive := by
  decide

end Sys2Proof.Tests
end

section
/-! SUPPORT. What the host port keeps and returns, and the statements about it (spec/10_state.md R20 to R28, R44,
R47; spec/20_memory.md R71 to R73). -/

namespace Sys2Proof.Machine

/-! ### One event, one step -/

/-- With an event waiting, a step takes it off the list and gives it its effect. -/
theorem step_of_events {s : State} {e : Event} {rest : List Event} (h : s.events = e :: rest) :
    step s = stepEvent e { s with events := rest } := by
  rw [step, h]

/-- A supported write access is a step of the port (R71, R72). -/
theorem step_write {s : State} {o : Nat} {v : Word} {rest : List Event} (h : s.events = .write 32 o v :: rest)
    (h4 : o % 4 = 0) (hlt : o < blkBytes) : step s = blkWrite o v { s with events := rest } := by
  rw [step_of_events h]
  exact hostWrite_supported o v _ h4 hlt

/-- A supported read access is a step that records the value (R71, R73). -/
theorem step_read {s : State} {o : Nat} {rest : List Event} (h : s.events = .read 32 o :: rest)
    (h4 : o % 4 = 0) (hlt : o < blkBytes) :
    step s = .next { s with events := rest, readLog := s.readLog ++ [blkRead o { s with events := rest }] } := by
  rw [step_of_events h]
  exact hostRead_supported o _ h4 hlt

theorem blkWrite_opr (w : Word) (s : State) : blkWrite 0x000 w s = issue w s := rfl

/-- A word that decodes is stored and its operation performed (R23, R100). -/
theorem issue_of_decode {w : Word} {i : Instr} (h : decode w = .ok i) (s : State) :
    issue w s = exec i { s with opr := w } := by
  rw [issue, h]

/-- A word that does not decode is stored and reported (R106). -/
theorem issue_of_illegal {w : Word} {d : DecodeError} (h : decode w = .error d) (s : State) :
    issue w s = .next (finish .errBadOpcode { s with opr := w }) := by
  rw [issue, h]

/-- A write where no register stands does nothing (R44). -/
theorem blkWrite_of_no_register {o : Nat} (h : regAt o = none) (v : Word) (s : State) :
    blkWrite o v s = .next s := by
  rw [blkWrite, h]

/-- A read where neither a register nor the PRD window stands gives 0 (R44). -/
theorem blkRead_of_no_register {o : Nat} (h : regAt o = none) (hw : o < prdWindow) (s : State) :
    blkRead o s = 0 := by
  rw [blkRead, h]
  exact if_neg (Nat.not_le.mpr hw)

theorem unassignedOffset_aligned {o : Nat} (h : unassignedOffset o = true) : o % 4 = 0 := by
  simp only [unassignedOffset, Bool.and_eq_true, beq_iff_eq] at h
  exact h.1

/-- The unassigned offsets lie below the PRD window (R20, R44). -/
theorem unassignedOffset_lt {o : Nat} (h : unassignedOffset o = true) : o < prdWindow := by
  simp only [unassignedOffset, Bool.and_eq_true, Bool.or_eq_true, decide_eq_true_eq] at h
  show o < 0x200
  omega

/-! ### The stores of the host -/

/-- A host write of a register reaches the operand, base, command, task-file and extended-LBA registers and
nothing else (R28, R44, R72). -/
theorem regWrite_frame (r : Reg) (v : Word) (s : State) :
    regWrite r v s =
      { s with arg0 := (regWrite r v s).arg0, arg1 := (regWrite r v s).arg1, arg2 := (regWrite r v s).arg2
               prdBase := (regWrite r v s).prdBase, cmdFlags := (regWrite r v s).cmdFlags
               cmdPosition := (regWrite r v s).cmdPosition, cmdByteCount := (regWrite r v s).cmdByteCount
               tf := (regWrite r v s).tf, xl := (regWrite r v s).xl } := by
  cases r <;> rfl

@[simp] theorem regWrite_opstat (r : Reg) (v : Word) (s : State) : (regWrite r v s).opstat = s.opstat := by rw [regWrite_frame]
@[simp] theorem regWrite_res1 (r : Reg) (v : Word) (s : State) : (regWrite r v s).res1 = s.res1 := by rw [regWrite_frame]
@[simp] theorem regWrite_dma (r : Reg) (v : Word) (s : State) : (regWrite r v s).dma = s.dma := by rw [regWrite_frame]
@[simp] theorem regWrite_prdCount (r : Reg) (v : Word) (s : State) : (regWrite r v s).prdCount = s.prdCount := by rw [regWrite_frame]
@[simp] theorem regWrite_cmdActual (r : Reg) (v : Word) (s : State) : (regWrite r v s).cmdActual = s.cmdActual := by rw [regWrite_frame]
@[simp] theorem regWrite_table (r : Reg) (v : Word) (s : State) : (regWrite r v s).table = s.table := by rw [regWrite_frame]
@[simp] theorem regWrite_engine (r : Reg) (v : Word) (s : State) : (regWrite r v s).engine = s.engine := by rw [regWrite_frame]
@[simp] theorem regWrite_events (r : Reg) (v : Word) (s : State) : (regWrite r v s).events = s.events := by rw [regWrite_frame]
@[simp] theorem regWrite_segAnswers (r : Reg) (v : Word) (s : State) : (regWrite r v s).segAnswers = s.segAnswers := by rw [regWrite_frame]
@[simp] theorem regWrite_draws (r : Reg) (v : Word) (s : State) : (regWrite r v s).draws = s.draws := by rw [regWrite_frame]
@[simp] theorem regWrite_bmTrace (r : Reg) (v : Word) (s : State) : (regWrite r v s).bmTrace = s.bmTrace := by rw [regWrite_frame]
@[simp] theorem regWrite_segTrace (r : Reg) (v : Word) (s : State) : (regWrite r v s).segTrace = s.segTrace := by rw [regWrite_frame]
@[simp] theorem regWrite_readLog (r : Reg) (v : Word) (s : State) : (regWrite r v s).readLog = s.readLog := by rw [regWrite_frame]
@[simp] theorem regWrite_deviceIrqs (r : Reg) (v : Word) (s : State) : (regWrite r v s).deviceIrqs = s.deviceIrqs := by rw [regWrite_frame]

/-- No register shows the host the events that are still to come. -/
theorem regRead_events (r : Reg) (es : List Event) (s : State) : regRead r { s with events := es } = regRead r s := by
  cases r <;> rfl

/-- The mask of PRDBASE and BM_PRDTP clears bits [1:0] (R28, R200). -/
theorem and_dwordMask (v : Word) : v &&& 0xFFFFFFFC#32 = (v >>> 2) <<< 2 := by
  have hmask : ∀ k < 32, (0xFFFFFFFC#32).getLsbD k = !decide (k < 2) := by decide
  apply BitVec.eq_of_getLsbD_eq
  intro k hk
  rw [BitVec.getLsbD_and, hmask k hk, BitVec.getLsbD_shiftLeft, BitVec.getLsbD_ushiftRight]
  by_cases h2 : k < 2
  · simp [h2]
  · simp [hk, h2, Nat.add_sub_cancel' (Nat.not_lt.mp h2)]

/-- Clearing bits [1:0] rounds down to a multiple of 4 (R28). -/
theorem toNat_and_dwordMask (v : Word) : (v &&& 0xFFFFFFFC#32).toNat = v.toNat / 4 * 4 := by
  have hv := v.isLt
  rw [and_dwordMask, BitVec.toNat_shiftLeft, BitVec.toNat_ushiftRight, Nat.shiftRight_eq_div_pow,
    Nat.shiftLeft_eq]
  omega

/-- A field of the low `w` bits, zero-extended, is the value truncated to `w` bits (R9, R20, R72). -/
theorem zeroExtend_extractLsb' (v : Word) (w : Nat) :
    (v.extractLsb' 0 w).zeroExtend 32 = BitVec.ofNat 32 (v.toNat % 2 ^ w) := by
  apply BitVec.eq_of_toNat_eq
  simp

/-- A register the host may store to reads back what it keeps of the value (R72, R73). -/
theorem regRead_regWrite_same (r : Reg) (v : Word) (s : State) (h : regStores r = true) :
    regRead r (regWrite r v s) = BitVec.ofNat 32 (regKeeps r v.toNat) := by
  have hfull : v = BitVec.ofNat 32 (v.toNat % 2 ^ 32) := by
    rw [Nat.mod_eq_of_lt v.isLt, BitVec.ofNat_toNat, BitVec.setWidth_eq]
  have hbase : v &&& 0xFFFFFFFC#32 = BitVec.ofNat 32 (v.toNat / 4 * 4) := by
    rw [← toNat_and_dwordMask, BitVec.ofNat_toNat, BitVec.setWidth_eq]
  cases r with
  | opr | opstat | res0 | res1 | dmastate | cmdActual => cases h
  | arg0 | arg1 | arg2 | cmdPosition | cmdByteCount => exact hfull
  | prdbase => exact hbase
  | _ => exact zeroExtend_extractLsb' v _

/-- What a register reads after a host write of a register: only the one written can move (R72). The map is a
table, so the proof goes through it cell by cell. -/
theorem regRead_regWrite (r r' : Reg) (v : Word) (s : State) :
    regRead r' (regWrite r v s) = if r' = r then regRead r (regWrite r v s) else regRead r' s := by
  cases r <;> cases r' <;> rfl

/-! ### DMASTATE (R27) -/

/-- The value of two fields side by side. -/
theorem toNat_append_eq_add {n m : Nat} (x : BitVec n) (y : BitVec m) :
    (x ++ y).toNat = x.toNat * 2 ^ m + y.toNat := by
  rw [BitVec.toNat_append, ← Nat.shiftLeft_add_eq_or_of_lt y.isLt, Nat.shiftLeft_eq]

theorem toNat_dmaStateWord (st last : DmaState) (count : Byte) :
    (dmaStateWord st last count).toNat
      = st.code.toNat + last.code.toNat * 2 ^ 4 + count.toNat * 2 ^ 8 := by
  simp only [dmaStateWord, toNat_append_eq_add, BitVec.toNat_ofNat]
  omega

/-! ### The statements about the port and the registers -/

/-- Settles O7. -/
theorem stepRunsDecodedOperation : Obligations.StepRunsDecodedOperation := by
  intro s w rest i h hd
  rw [step_write h (by decide) (by decide), blkWrite_opr, issue_of_decode hd]

/-- Settles O17: the write is `regWrite` and the read is `regRead` of the same register. -/
theorem registerStoresAndReadsBack : Obligations.RegisterStoresAndReadsBack := by
  intro s r v rest hr h
  have hne : r ≠ .opr := by rintro rfl; cases hr
  have hwrite : step s = .next (regWrite r v { s with events := .read 32 (regOffset r) :: rest }) := by
    rw [step_write h (regOffset_aligned r) (regOffset_lt r), blkWrite_reg r v _ hne]
  refine ⟨_, hwrite, ?_, fun r' h' => ?_, by simp⟩
  · rw [step_read (regWrite_events r v _) (regOffset_aligned r) (regOffset_lt r), blkRead_reg, regRead_events,
      regRead_regWrite_same r v _ hr, regWrite_readLog]
  · rw [regRead_regWrite, if_neg h', regRead_events]

/-- Settles O18: no register stands at an unassigned offset or in the window, and `regWrite` ignores the
read-only ones. -/
theorem ignoredWritesAndZeroReads : Obligations.IgnoredWritesAndZeroReads := by
  intro s o v rest
  have hbelow : prdWindow < blkBytes := by decide
  refine ⟨fun hu h => ?_, fun hor h => ?_⟩
  · have hlt := unassignedOffset_lt hu
    rw [step_read h (unassignedOffset_aligned hu) (hlt.trans hbelow),
      blkRead_of_no_register (regAt_unassigned hu) hlt]
  · rcases hor with hu | hro | ⟨hge, hlt, h4⟩
    · rw [step_write h (unassignedOffset_aligned hu) ((unassignedOffset_lt hu).trans hbelow),
        blkWrite_of_no_register (regAt_unassigned hu)]
    · obtain ⟨r, hr, rfl⟩ : ∃ r ∈ [Reg.opstat, .res0, .res1, .dmastate, .cmdActual], regOffset r = o :=
        List.mem_map.mp hro
      have hne : r ≠ .opr := by rintro rfl; revert hr; decide
      rw [step_write h (regOffset_aligned r) (regOffset_lt r), blkWrite_reg r v _ hne]
      simp only [List.mem_cons, List.not_mem_nil, or_false] at hr
      rcases hr with rfl | rfl | rfl | rfl | rfl <;> rfl
    · rw [step_write h h4 hlt, blkWrite_of_no_register (regAt_window hge)]

/-- Settles O22. -/
theorem accessOutsideBlkSpaceFaults : Obligations.AccessOutsideBlkSpaceFaults := by
  intro s o v rest h4 hge h
  have hout : ¬ o < blkBytes := Nat.not_lt.mpr hge
  rcases h with h | h
  · rw [step_of_events h]
    simp [stepEvent, hostWrite, h4, hout]
  · rw [step_of_events h]
    simp [stepEvent, hostRead, h4, hout]

/-- Settles O23. -/
theorem dmastateFieldPlaces : Obligations.DmastateFieldPlaces :=
  ⟨fun s => toNat_dmaStateWord s.dma s.lastStop s.prdCount, rfl, rfl, rfl, rfl, rfl⟩

/-- Settles O54: every register of the map is a field that power-on zeroes, and no offset of the table is
listed. -/
theorem powerOnValues : Obligations.PowerOnValues := by
  refine fun e => ⟨fun r => ?_, rfl, fun _ => rfl⟩
  cases r with
  | dmastate => show dmaStateWord .inactive .inactive 0 = 0; decide
  | _ => rfl

end Sys2Proof.Machine
end

section
/-! SUPPORT. What each operation writes and which transitions it makes (spec/10_state.md R22 to R42;
spec/43_dma_engine.md R201 to R207). -/

namespace Sys2Proof.Machine

/-! ### The operations, one by one -/

/-- SETLBA28 reports a range error, or packs the task-file image (R132, R232). -/
theorem exec_setlba28_cases {u : BitVec 4} {s t : State} (h : exec (.setlba28 u) s = .next t) :
    t = finish .errRange s ∨ t = finish .ok { s with tf := lba28Pack (lbaOperand s) u s.tf } := by
  change execSetlba28 u s = _ at h
  unfold execSetlba28 at h
  split at h
  · exact .inl (by cases h; rfl)
  · exact .inr (by cases h; rfl)

/-- ONINT outside Status only reports that no program is armed (R205, R209). -/
theorem exec_onint_unarmed {s : State} (h : s.dma ≠ .status) :
    exec .onint s = .next (finish .intNotArmed s) := by
  show execOnint s = _
  rw [execOnint, if_neg h]

/-- ONINT in Status settles the program and stops it (R205). -/
theorem exec_onint_armed {s : State} (h : s.dma = .status) :
    exec .onint s = .next (finish .ok (stopCore (settleProgram (bmStatusNow s) (afterStatusRead s)))) := by
  show execOnint s = _
  rw [execOnint, if_pos h]

/-- ONINT that goes through was unarmed or armed, and the state says which. -/
theorem exec_onint_cases {s t : State} (h : exec .onint s = .next t) :
    (s.dma ≠ .status ∧ t = finish .intNotArmed s) ∨
    (s.dma = .status ∧ t = finish .ok (stopCore (settleProgram (bmStatusNow s) (afterStatusRead s)))) := by
  by_cases hd : s.dma = .status
  · rw [exec_onint_armed hd] at h
    exact .inr ⟨hd, by cases h; rfl⟩
  · rw [exec_onint_unarmed hd] at h
    exact .inl ⟨hd, by cases h; rfl⟩

@[simp] theorem stopCore_dma (s : State) : (stopCore s).dma = .inactive := by rw [stopCore_frame]
@[simp] theorem stopCore_lastStop (s : State) : (stopCore s).lastStop = lastStopAfter s.dma s.lastStop := by
  rw [stopCore_frame]

/-- A stop of a settled block keeps the program it stopped in LASTSTOP (R202). -/
theorem lastStopAfter_settled {d : DmaState} (h : d = .inactive ∨ d = .status) (old : DmaState) :
    lastStopAfter d old = if d = .status then .status else old := by
  rcases h with rfl | rfl <;> rfl

/-! ### What each operation writes -/

/-- Settles O46: each operation is the update its rule gives, STARTDMA by its frame. -/
theorem operationsWriteOnlyTheirRegisters : Obligations.OperationsWriteOnlyTheirRegisters := by
  intro i s t h
  cases i with
  | nop => cases h; simp [Instr.opcode]
  | cmdreset => cases h; simp [Instr.opcode]
  | setlba28 u => rcases exec_setlba28_cases h with rfl | rfl <;> simp [Instr.opcode]
  | setxlba u x => cases h; simp [Instr.opcode]
  | getxlba => cases h; simp [Instr.opcode]
  | xzero => cases h; simp [Instr.opcode]
  | startdma => rw [execStartdma_frame s t h]; simp [Instr.opcode]
  | stopdma => cases h; rw [stopCore_frame]; simp [Instr.opcode]
  | onint =>
    rcases exec_onint_cases h with ⟨_, rfl⟩ | ⟨_, rfl⟩
    · simp [Instr.opcode]
    · rw [stopCore_settleProgram]; simp [Instr.opcode]

/-! ### The transitions of the state machine -/

/-- A STARTDMA that goes through, from any state: started, no buffer, or an exhausted table (R201, R204, R207). -/
theorem exec_startdma_transitions {s t : State} (h : exec .startdma s = .next t) :
    (t.opstat = 0x00 ∧ t.dma = .status ∧ t.lastStop = lastStopAfter s.dma s.lastStop) ∨
    (t.opstat = 0x02 ∧ t.dma = .inactive ∧ t.lastStop = .starting) ∨
    (t.opstat = 0x03 ∧ t.dma = .inactive ∧ t.lastStop = .error) := by
  change execStartdma s = _ at h
  rcases execStartdma_cases s with ⟨_, he⟩ | ⟨_, ⟨b, he, hd, hb⟩ | ⟨b, he, hd, _, _⟩ | he⟩
  · rw [he] at h; cases h
    exact .inr (.inl ⟨rfl, by simp, by simp [lastStopAfter]⟩)
  · rw [he] at h; cases h
    have hlast : b.lastStop = lastStopAfter s.dma s.lastStop := by rw [hb.frame]; simp
    exact .inl ⟨rfl, hd, hlast⟩
  · rw [he] at h; cases h
    exact .inr (.inr ⟨rfl, by simp, by simp [lastStopAfter, hd]⟩)
  · rw [he] at h; cases h

/-- An ONINT from a settled state ends in Inactive, with LASTSTOP by the program it settled (R201, R205). -/
theorem exec_onint_transitions {s t : State} (hs : s.dma = .inactive ∨ s.dma = .status)
    (h : exec .onint s = .next t) :
    t.dma = .inactive ∧
    t.lastStop = (if s.dma = .status then (if s.engine.err then .error else .complete) else s.lastStop) := by
  rcases exec_onint_cases h with ⟨hd, rfl⟩ | ⟨hd, rfl⟩
  · exact ⟨hs.resolve_right hd, by rw [if_neg hd]; rfl⟩
  · rw [stopCore_settleProgram, if_pos hd]
    exact ⟨rfl, rfl⟩

/-- An operation other than the three of the sequencer leaves STATE and LASTSTOP as they were (R201). -/
theorem exec_keeps_dma {i : Instr} {s t : State} (hi : i ∉ [.startdma, .stopdma, .onint])
    (h : exec i s = .next t) : t.dma = s.dma ∧ t.lastStop = s.lastStop := by
  have hop : i.opcode ∉ [.startdma, .stopdma, .onint] := by
    cases i <;> simp_all [Instr.opcode]
  obtain ⟨_, _, _, _, _, _, _, hrest⟩ := operationsWriteOnlyTheirRegisters i s t h
  obtain ⟨hdma, hlast, _⟩ := hrest hop
  exact ⟨hdma, hlast⟩

/-- Settles O45: the three operations of the sequencer by their transitions, every other one by its frame. -/
theorem stateMachineTransitions : Obligations.StateMachineTransitions := by
  intro i s t hs h
  by_cases hi : i ∈ [.startdma, .stopdma, .onint]
  · simp only [List.mem_cons, List.not_mem_nil, or_false] at hi
    rcases hi with rfl | rfl | rfl
    · have ht := exec_startdma_transitions h
      rw [lastStopAfter_settled hs] at ht
      have hsettled : t.dma = .inactive ∨ t.dma = .status := by
        rcases ht with ⟨_, hd, _⟩ | ⟨_, hd, _⟩ | ⟨_, hd, _⟩ <;> simp [hd]
      simpa [hsettled] using ht
    · cases h
      simp [lastStopAfter_settled hs]
    · have ht := exec_onint_transitions hs h
      simp [ht]
  · have hkeep := exec_keeps_dma hi h
    have hsettled : t.dma = .inactive ∨ t.dma = .status := by rw [hkeep.1]; exact hs
    exact ⟨hsettled, fun _ => hkeep, fun e => absurd (by simp [e]) hi, fun e => absurd (by simp [e]) hi,
      fun e => absurd (by simp [e]) hi⟩

end Sys2Proof.Machine
end

section
/-! SUPPORT. What one event can do, and what every step keeps (spec/10_state.md R27 to R42; spec/43_dma_engine.md
R200 to R216; spec/70_reset_and_hazards.md R272). -/

namespace Sys2Proof.Machine

/-! ### What one event can do -/

/-- What an event that goes through does to the state: an operation of the block, an illegal word, a store of
the host, nothing, a read that is recorded, a write of the host to a block without a program, or DONE. -/
inductive EventEffect (e : Event) (s t : State) : Prop where
  | operation (w : Word) (i : Instr) (issued : e = .write 32 0x000 w) (decoded : decode w = .ok i)
      (ran : exec i { s with opr := w } = .next t)
  | illegal (w : Word) (result : t = finish .errBadOpcode { s with opr := w })
  | store (r : Reg) (v : Word) (result : t = regWrite r v s)
  | ignored (result : t = s)
  | recorded (log : List Word) (draws : Nat) (result : t = { s with readLog := log, draws := draws })
  | engineWritten (r : BmReg) (v : Word) (unarmed : s.dma ≠ .status) (noStart : r = .cmd → v.getLsbD 0 = false)
      (result : t = { s with engine := engineWrite r v s.engine })
  | transferDone (b : Bool) (result : t = engineDone b s)

theorem hostWrite_effect {width o : Nat} {v : Word} {s t : State} (h : hostWrite width o v s = .next t) :
    EventEffect (.write width o v) s t := by
  unfold hostWrite at h
  split at h
  · cases h
  split at h
  · cases h
  split at h
  case isFalse => cases h
  next hwidth _ _ =>
  cases hr : regAt o with
  | none => rw [blkWrite_of_no_register hr] at h; cases h; exact .ignored rfl
  | some r =>
    obtain rfl := regAt_some hr
    by_cases hopr : r = .opr
    · subst hopr
      change issue v s = _ at h
      cases hd : decode v with
      | ok i =>
        rw [issue_of_decode hd] at h
        exact .operation v i (by rw [not_not.mp hwidth]; rfl) hd h
      | error d => rw [issue_of_illegal hd] at h; cases h; exact .illegal v rfl
    · rw [blkWrite_reg r v s hopr] at h; cases h; exact .store r v rfl

theorem hostRead_effect {width o : Nat} {s t : State} (h : hostRead width o s = .next t) :
    EventEffect (.read width o) s t := by
  unfold hostRead at h
  split at h
  · cases h
  split at h
  · cases h
  split at h
  · cases h; exact .recorded _ s.draws rfl
  · cases h

theorem hostBmWrite_effect {r : BmReg} {v : Word} {s t : State} (h : hostBmWrite r v s = .next t) :
    EventEffect (.bmWrite r v) s t := by
  unfold hostBmWrite at h
  split at h
  · cases h
  split at h
  · cases h
  next hd hstart =>
  cases h
  exact .engineWritten r v hd (by simpa using hstart) rfl

theorem doneEvent_effect {b : Bool} {s t : State} (h : doneEvent b s = .next t) :
    EventEffect (.done b) s t := by
  unfold doneEvent at h
  split at h
  · cases h; exact .transferDone b rfl
  · cases h

/-- An event that goes through has one of the effects. -/
theorem stepEvent_effect {e : Event} {s t : State} (h : stepEvent e s = .next t) : EventEffect e s t := by
  cases e with
  | write width o v => exact hostWrite_effect h
  | read width o => exact hostRead_effect h
  | bmWrite r v => exact hostBmWrite_effect h
  | bmRead r => cases h; exact .recorded _ _ rfl
  | done b => exact doneEvent_effect h

/-- A step waits, or its first event leaves the list and has its effect (R21). -/
theorem step_effect {s t : State} (h : step s = .next t) :
    (s.events = [] ∧ t = s) ∨
    ∃ e rest, s.events = e :: rest ∧ EventEffect e { s with events := rest } t := by
  cases he : s.events with
  | nil => rw [step, he] at h; cases h; exact .inl ⟨rfl, rfl⟩
  | cons e rest => rw [step_of_events he] at h; exact .inr ⟨e, rest, rfl, stepEvent_effect h⟩

/-- No event puts another one on the list. -/
theorem EventEffect.events_eq {e : Event} {s t : State} (h : EventEffect e s t) : t.events = s.events := by
  cases h with
  | operation w i _ _ ran =>
    obtain ⟨⟨_, _, _, _, _, hev, _⟩, _⟩ := operationsWriteOnlyTheirRegisters i _ t ran
    exact hev
  | illegal w result => rw [result]; rfl
  | store r v result => rw [result]; simp
  | ignored result => rw [result]
  | recorded log draws result => rw [result]
  | engineWritten r v _ _ result => rw [result]
  | transferDone b result => rw [result]; rfl

/-! ### The invariant, part by part -/

/-- The fields the invariant speaks of. -/
def invFields (s : State) : DmaState × Byte × Byte × Word × Engine × Word × Memory :=
  (s.dma, s.opstat, s.prdCount, s.prdBase, s.engine, s.res1, s.table)

/-- The invariant depends on its fields alone. -/
theorem Inv.congr {s t : State} (hs : Inv s) (h : invFields t = invFields s) : Inv t := by
  simp only [invFields, Prod.mk.injEq] at h
  obtain ⟨hdma, hcode, hcount, hbase, hengine, hres1, htable⟩ := h
  obtain ⟨h1, h2, h3, h4, h5, h6, h7, h8, h9⟩ := hs
  constructor <;> simp only [hdma, hcode, hcount, hbase, hengine, hres1, htable] <;> assumption

/-- Completion keeps the invariant: every result code is a listed one (R231). -/
theorem Inv_finish (c : ResultCode) {s : State} (hs : Inv s) : Inv (finish c s) :=
  ⟨hs.dma_settled, code_le c, hs.count_bound, hs.prdBase_aligned, hs.prdtp_aligned, hs.res1_bound, hs.table_wf,
    hs.start_iff_program, hs.active_started⟩

/-- The clauses of the invariant that hold inside an operation as well, whatever STATE is. -/
structure StorageInv (s : State) : Prop where
  count_bound : s.prdCount.toNat ≤ 64
  prdBase_aligned : s.prdBase.toNat % 4 = 0
  prdtp_aligned : s.engine.prdtp.toNat % 4 = 0
  res1_bound : s.res1.toNat < 2 ^ 16
  table_wf : s.table.wf = true

theorem Inv.storage {s : State} (hs : Inv s) : StorageInv s :=
  ⟨hs.count_bound, hs.prdBase_aligned, hs.prdtp_aligned, hs.res1_bound, hs.table_wf⟩

/-- The state BUILD starts from, with its table reinitialised (R161). -/
theorem StorageInv_armed {s : State} (hs : StorageInv s) : StorageInv (armed s) where
  count_bound := by simp
  prdBase_aligned := by simpa using hs.prdBase_aligned
  prdtp_aligned := by simpa [engineStopped_prdtp] using hs.prdtp_aligned
  res1_bound := by simpa using hs.res1_bound
  table_wf := by rw [armed_table]; exact stopEntries_wf prdMax _ (Nat.le_refl _) hs.table_wf

/-- A build keeps the stored clauses, whatever the provider answers (R176). -/
theorem StorageInv_build {slots pos rem : Nat} {s t : State} (h : BuildEffect slots pos rem s t)
    (hs : StorageInv s) : StorageInv t where
  count_bound := h.count_le hs.count_bound
  prdBase_aligned := by rw [h.frame]; exact hs.prdBase_aligned
  prdtp_aligned := by rw [h.frame]; exact hs.prdtp_aligned
  res1_bound := by rw [h.frame]; exact hs.res1_bound
  table_wf := h.table_wf hs.table_wf

/-- A stop that finds a program, or a build, leaves the block settled and the engine halted (R202). -/
theorem Inv_stopped (c : ResultCode) {s : State} (hd : s.dma ≠ .inactive) (hs : StorageInv s) :
    Inv (finish c (stopCore s)) := by
  rw [stopCore_frame, engineStopped, if_neg hd]
  exact ⟨.inl rfl, code_le c, hs.count_bound, hs.prdBase_aligned, hs.prdtp_aligned, hs.res1_bound, hs.table_wf,
    by simp [finish], by simp [finish]⟩

/-- A started program: START is 1, and the engine has the table base with bits [1:0] 0 (R204). -/
theorem Inv_started (c : ResultCode) {s : State} (hd : s.dma = .status) (hs : StorageInv s) :
    Inv (finish c (startEngine s)) := by
  have hstart : (if readDirection s then (0x09 : Byte) else 0x01).getLsbD 0 = true := by
    cases readDirection s <;> rfl
  have hbase : (s.prdBase &&& 0xFFFFFFFC#32).toNat % 4 = 0 := by rw [toNat_and_dwordMask]; omega
  rw [startEngine_frame]
  exact ⟨.inr hd, code_le c, hs.count_bound, hs.prdBase_aligned, hbase, hs.res1_bound, hs.table_wf,
    iff_of_true hstart hd, fun _ => hstart⟩

/-! ### Every event keeps the invariant -/

/-- RES1 holds 16 LBA bits (R134). -/
theorem xlbaHigh_lt (xl : ExtLba) : (xlbaHigh xl).toNat < 2 ^ 16 := by
  have h1 := (hobByte xl.lbaHigh16).isLt
  have h2 := (hobByte xl.lbaMid16).isLt
  simp only [xlbaHigh, toNat_append_eq_add, BitVec.toNat_ofNat]
  omega

theorem Inv_getxlba {s : State} (hs : Inv s) :
    Inv (finish .ok { s with res0 := xlbaLow s.xl, res1 := xlbaHigh s.xl }) :=
  Inv_finish .ok ⟨hs.dma_settled, hs.code_listed, hs.count_bound, hs.prdBase_aligned, hs.prdtp_aligned,
    xlbaHigh_lt s.xl, hs.table_wf, hs.start_iff_program, hs.active_started⟩

/-- STARTDMA ends in a started program or in a stop (R204, R207). -/
theorem Inv_startdma {s t : State} (hs : Inv s) (h : exec .startdma s = .next t) : Inv t := by
  change execStartdma s = _ at h
  have harmed := StorageInv_armed hs.storage
  rcases execStartdma_cases s with ⟨_, he⟩ | ⟨_, ⟨b, he, hd, hb⟩ | ⟨b, he, hd, hb, _⟩ | he⟩
  · rw [he] at h; cases h
    exact Inv_stopped _ (by simp) harmed
  · rw [he] at h; cases h
    exact Inv_started _ hd (StorageInv_build hb harmed)
  · rw [he] at h; cases h
    exact Inv_stopped _ (by simp [hd]) (StorageInv_build hb harmed)
  · rw [he] at h; cases h

/-- STOPDMA does nothing in Inactive, and stops the program in Status (R203). -/
theorem Inv_stopdma {s : State} (hs : Inv s) : Inv (finish .ok (stopCore s)) := by
  by_cases hd : s.dma = .inactive
  · rw [stopCore, if_pos hd]
    exact Inv_finish .ok hs
  · exact Inv_stopped .ok hd hs.storage

/-- ONINT reports, or settles the program and stops it (R205). -/
theorem Inv_onint {s t : State} (hs : Inv s) (h : exec .onint s = .next t) : Inv t := by
  rcases exec_onint_cases h with ⟨_, rfl⟩ | ⟨_, rfl⟩
  · exact Inv_finish .intNotArmed hs
  · refine Inv_stopped .ok ?_ ?_
    · unfold settleProgram; split <;> simp
    · unfold settleProgram
      split <;> exact ⟨hs.count_bound, hs.prdBase_aligned, hs.prdtp_aligned, hs.res1_bound, hs.table_wf⟩

/-- Every operation keeps the invariant. -/
theorem Inv_exec {i : Instr} {s t : State} (hs : Inv s) (h : exec i s = .next t) : Inv t := by
  cases i with
  | nop => cases h; exact Inv_finish .ok hs
  | cmdreset => cases h; exact Inv_finish .ok (hs.congr rfl)
  | setlba28 u =>
    rcases exec_setlba28_cases h with rfl | rfl
    · exact Inv_finish .errRange hs
    · exact Inv_finish .ok (hs.congr rfl)
  | setxlba u x => cases h; exact Inv_finish .ok (hs.congr rfl)
  | getxlba => cases h; exact Inv_getxlba hs
  | xzero => cases h; exact Inv_finish .ok (hs.congr rfl)
  | startdma => exact Inv_startdma hs h
  | stopdma => cases h; exact Inv_stopdma hs
  | onint => exact Inv_onint hs h

/-- PRDBASE keeps bits [1:0] 0 under every write of the host (R28). -/
theorem regWrite_prdBase_aligned (r : Reg) (v : Word) (s : State) (hs : s.prdBase.toNat % 4 = 0) :
    (regWrite r v s).prdBase.toNat % 4 = 0 := by
  cases r with
  | prdbase => show (v &&& 0xFFFFFFFC#32).toNat % 4 = 0; rw [toNat_and_dwordMask]; omega
  | _ => exact hs

theorem Inv_regWrite (r : Reg) (v : Word) {s : State} (hs : Inv s) : Inv (regWrite r v s) where
  dma_settled := by simpa using hs.dma_settled
  code_listed := by simpa using hs.code_listed
  count_bound := by simpa using hs.count_bound
  prdBase_aligned := regWrite_prdBase_aligned r v s hs.prdBase_aligned
  prdtp_aligned := by simpa using hs.prdtp_aligned
  res1_bound := by simpa using hs.res1_bound
  table_wf := by simpa using hs.table_wf
  start_iff_program := by simpa using hs.start_iff_program
  active_started := by simpa using hs.active_started

/-- BM_PRDTP keeps bits [1:0] 0 under every write (R200, R215). -/
theorem engineWrite_prdtp_aligned (r : BmReg) (v : Word) (e : Engine) (he : e.prdtp.toNat % 4 = 0) :
    (engineWrite r v e).prdtp.toNat % 4 = 0 := by
  cases r with
  | prdtp => show (v &&& 0xFFFFFFFC#32).toNat % 4 = 0; rw [toNat_and_dwordMask]; omega
  | cmd => exact he
  | status => exact he

/-- A write that starts nothing leaves a halted engine halted (R215, R272). -/
theorem engineWrite_stays_halted (r : BmReg) (v : Word) (e : Engine) (hv : r = .cmd → v.getLsbD 0 = false)
    (hcmd : e.cmd.getLsbD 0 = false) (hact : e.active = false) :
    (engineWrite r v e).cmd.getLsbD 0 = false ∧ (engineWrite r v e).active = false := by
  cases r with
  | cmd =>
    have hbit := hv rfl
    refine ⟨?_, if_neg (by rw [hbit]; exact Bool.false_ne_true)⟩
    show (v.extractLsb' 0 8).getLsbD 0 = false
    simpa using hbit
  | status => exact ⟨hcmd, hact⟩
  | prdtp => exact ⟨hcmd, hact⟩

/-- The host's own write of an engine register, while the block holds no program (R264, R272). -/
theorem Inv_engineWritten (r : BmReg) (v : Word) {s : State} (hd : s.dma ≠ .status)
    (hv : r = .cmd → v.getLsbD 0 = false) (hs : Inv s) : Inv { s with engine := engineWrite r v s.engine } := by
  have hcmd : s.engine.cmd.getLsbD 0 = false := Bool.eq_false_iff.mpr fun h => hd (hs.start_iff_program.mp h)
  have hact : s.engine.active = false :=
    Bool.eq_false_iff.mpr fun h => hd (hs.start_iff_program.mp (hs.active_started h))
  obtain ⟨hcmd', hact'⟩ := engineWrite_stays_halted r v s.engine hv hcmd hact
  exact ⟨hs.dma_settled, hs.code_listed, hs.count_bound, hs.prdBase_aligned,
    engineWrite_prdtp_aligned r v s.engine hs.prdtp_aligned, hs.res1_bound, hs.table_wf,
    iff_of_false (Bool.eq_false_iff.mp hcmd') hd, fun h => absurd h (Bool.eq_false_iff.mp hact')⟩

/-- DONE changes neither START nor the table base, and the engine goes idle (R215). -/
theorem Inv_engineDone (b : Bool) {s : State} (hs : Inv s) : Inv (engineDone b s) :=
  ⟨hs.dma_settled, hs.code_listed, hs.count_bound, hs.prdBase_aligned, hs.prdtp_aligned, hs.res1_bound, hs.table_wf,
    hs.start_iff_program, by simp⟩

theorem EventEffect.inv {e : Event} {s t : State} (h : EventEffect e s t) (hs : Inv s) : Inv t := by
  cases h with
  | operation w i _ _ ran => exact Inv_exec (s := { s with opr := w }) (hs.congr rfl) ran
  | illegal w result => rw [result]; exact Inv_finish .errBadOpcode (hs.congr rfl)
  | store r v result => rw [result]; exact Inv_regWrite r v hs
  | ignored result => rw [result]; exact hs
  | recorded log draws result => rw [result]; exact hs.congr rfl
  | engineWritten r v hd hv result => rw [result]; exact Inv_engineWritten r v hd hv hs
  | transferDone b result => rw [result]; exact Inv_engineDone b hs

/-- Settles O52, clause by clause on the reset values. -/
theorem resetMeetsInvariant : Obligations.ResetMeetsInvariant where
  dma_settled := .inl rfl
  code_listed := by decide
  count_bound := by decide
  prdBase_aligned := by decide
  prdtp_aligned := by decide
  res1_bound := by decide
  table_wf := by decide
  start_iff_program := by decide
  active_started := by decide

/-- Settles O53: a step waits, or its event has an effect that keeps the invariant. -/
theorem stepKeepsInvariant : Obligations.StepKeepsInvariant := by
  intro s t hs h
  rcases step_effect h with ⟨_, rfl⟩ | ⟨e, rest, _, heff⟩
  · exact hs
  · exact heff.inv (hs.congr rfl)

/-! ### No completion without a program (R209, R210) -/

/-- A word that decodes has selected the row of its operation (R104). -/
theorem decode_selects {w : Word} {i : Instr} (h : decode w = .ok i) :
    ∃ r ∈ opcodeTable, r.op = i.opcode ∧ r.selects w = true := by
  unfold decode at h
  split at h
  next r hr =>
    cases h
    refine ⟨r, List.mem_of_find?_eq_some hr, ?_, by simpa using List.find?_some hr⟩
    cases r.op <;> rfl
  next => split at h <;> cases h

/-- An operation whose row fixes every bit of the word has one word alone (R104, R105). -/
theorem word_of_decode {w m : Word} {i : Instr} (h : decode w = .ok i)
    (hrow : ∀ r ∈ opcodeTable, r.op = i.opcode → r.mask = 0xFFFFFFFF#32 ∧ r.matchWord = m) : w = m := by
  obtain ⟨r, hr, hop, hsel⟩ := decode_selects h
  obtain ⟨hmask, hmatch⟩ := hrow r hr hop
  have hfull : w &&& 0xFFFFFFFF#32 = w := BitVec.and_allOnes
  rw [OpcodeRow.selects, hmask, hmatch, hfull] at hsel
  exact beq_iff_eq.mp hsel

/-- The event is no host write of the STARTDMA or the CMDRESET word to OPR. -/
def Event.Quiet (e : Event) : Prop :=
  ∀ width o w, e = .write width o w → o = 0x000 → w ≠ 0x00000020#32 ∧ w ≠ 0x00000001#32

/-- In Inactive, an operation other than STARTDMA and CMDRESET stays there and leaves CMD_ACTUAL: STOPDMA finds
nothing to stop and ONINT reports that nothing is armed (R203, R209). -/
theorem exec_inactive_keeps_actual {i : Instr} {s t : State} (hd : s.dma = .inactive) (h20 : i ≠ .startdma)
    (h01 : i ≠ .cmdreset) (h : exec i s = .next t) : t.dma = .inactive ∧ t.cmdActual = s.cmdActual := by
  obtain ⟨_, hkeep, _, hstop, honint⟩ := stateMachineTransitions i s t (.inl hd) h
  obtain ⟨_, _, _, _, _, hactual, _⟩ := operationsWriteOnlyTheirRegisters i s t h
  cases i with
  | startdma => exact absurd rfl h20
  | cmdreset => exact absurd rfl h01
  | stopdma => exact ⟨(hstop rfl).1, hactual (by decide)⟩
  | onint =>
    rw [exec_onint_unarmed (by simp [hd])] at h
    cases h
    exact ⟨hd, rfl⟩
  | _ => exact ⟨(hkeep (by simp)).1.trans hd, hactual (by simp [Instr.opcode])⟩

/-- In Inactive, a quiet event leaves STATE and CMD_ACTUAL. -/
theorem EventEffect.keeps_actual {e : Event} {s t : State} (h : EventEffect e s t) (hq : e.Quiet)
    (hd : s.dma = .inactive) : t.dma = .inactive ∧ t.cmdActual = s.cmdActual := by
  cases h with
  | operation w i he hdec ran =>
    obtain ⟨h20, h01⟩ := hq 32 0x000 w he rfl
    have hstart : i ≠ .startdma := by
      rintro rfl
      exact h20 (word_of_decode hdec (by decide))
    have hreset : i ≠ .cmdreset := by
      rintro rfl
      exact h01 (word_of_decode hdec (by decide))
    exact exec_inactive_keeps_actual (s := { s with opr := w }) hd hstart hreset ran
  | illegal w result => rw [result]; exact ⟨hd, rfl⟩
  | store r v result => rw [result]; simp [hd]
  | ignored result => rw [result]; exact ⟨hd, rfl⟩
  | recorded log draws result => rw [result]; exact ⟨hd, rfl⟩
  | engineWritten r v _ _ result => rw [result]; exact ⟨hd, rfl⟩
  | transferDone b result => rw [result]; exact ⟨hd, rfl⟩

/-- One step from Inactive on quiet events: still Inactive, CMD_ACTUAL as it was, and what waits still quiet. -/
theorem step_keeps_actual {s t : State} (hd : s.dma = .inactive) (hq : ∀ e ∈ s.events, e.Quiet)
    (h : step s = .next t) :
    (t.dma = .inactive ∧ t.cmdActual = s.cmdActual) ∧ ∀ e ∈ t.events, e.Quiet := by
  rcases step_effect h with ⟨_, rfl⟩ | ⟨e, rest, hev, heff⟩
  · exact ⟨⟨hd, rfl⟩, hq⟩
  · rw [hev] at hq
    refine ⟨heff.keeps_actual (hq e List.mem_cons_self) hd, ?_⟩
    rw [heff.events_eq]
    exact fun e' he' => hq e' (List.mem_cons_of_mem e he')

/-- A run that goes through takes its first step and then runs on. -/
theorem run_succ {M : Host.Core} {n : Nat} {s t : M.State} (h : M.run (n + 1) s = .next t) :
    ∃ u, M.step s = .next u ∧ M.run n u = .next t := by
  rw [Host.Core.run] at h
  split at h
  next u hu => exact ⟨u, hu, h⟩
  all_goals cases h

/-- The run form of `step_keeps_actual`, by induction on the number of steps. -/
theorem run_keeps_actual (n : Nat) : ∀ s t : State, s.dma = .inactive → (∀ e ∈ s.events, e.Quiet) →
    core.run n s = .next t → t.dma = .inactive ∧ t.cmdActual = s.cmdActual := by
  induction n with
  | zero => intro s t hd _ h; cases h; exact ⟨hd, rfl⟩
  | succ n ih =>
    intro s t hd hq h
    obtain ⟨u, hu, hrun⟩ := run_succ (M := core) h
    obtain ⟨⟨hdu, hau⟩, hqu⟩ := step_keeps_actual hd hq hu
    obtain ⟨hdt, hat⟩ := ih u t hdu hqu hrun
    exact ⟨hdt, hat.trans hau⟩

/-- Settles O40: the run form, for the events as the statement describes them. -/
theorem noCompletionWithoutProgram : Obligations.NoCompletionWithoutProgram := by
  intro n s t hd hq h
  refine run_keeps_actual n s t hd (fun e he => ?_) h
  rintro width o w rfl ho
  exact hq width o w he ho

end Sys2Proof.Machine
end

section
/-! SUPPORT. What the host reads from the block and from the engine, and which accesses have no meaning
(spec/20_memory.md R71 to R76, R82). -/

namespace Sys2Proof.Machine

/-! ### Reads of the storage (R11, R75) -/

/-- A read of `n` bytes has `n` bytes. -/
theorem memRead_lt (n : Nat) : ∀ (m : Memory) (a : Nat), memRead m a n < 256 ^ n := by
  induction n with
  | zero => exact fun _ _ => Nat.one_pos
  | succ n ih =>
    intro m a
    have hbyte := (memByte m a).isLt
    have hrest := ih m (a + 1)
    rw [memRead, pow_succ']
    omega

/-- A read is the reads of its two parts, the part at the lower offsets in the lower bits. -/
theorem memRead_add (n k : Nat) : ∀ (m : Memory) (a : Nat),
    memRead m a (n + k) = memRead m a n + 256 ^ n * memRead m (a + n) k := by
  induction n with
  | zero => intro m a; simp [memRead]
  | succ n ih =>
    intro m a
    rw [Nat.succ_add, memRead, memRead, ih m (a + 1), Nat.succ_add_eq_add_succ a n, pow_succ']
    ring

/-! ### Reads of the host (R20, R73, R76) -/

/-- The window shows the storage (R76). -/
theorem blkRead_window (k : Nat) (s : State) : blkRead (0x200 + k) s = BitVec.ofNat 32 (memRead s.table k 4) := by
  have hwindow : prdWindow ≤ 0x200 + k := Nat.le_add_right _ _
  have hoff : 0x200 + k - prdWindow = k := Nat.add_sub_cancel_left _ _
  rw [blkRead, regAt_window hwindow]
  simp only [hwindow, if_true, hoff]

theorem toNat_blkRead_window (k : Nat) (s : State) : (blkRead (0x200 + k) s).toNat = memRead s.table k 4 := by
  rw [blkRead_window, BitVec.toNat_ofNat]
  exact Nat.mod_eq_of_lt (memRead_lt 4 _ _)

/-- No offset shows the host the events that are still to come. -/
theorem blkRead_events (o : Nat) (es : List Event) (s : State) :
    blkRead o { s with events := es } = blkRead o s := by
  unfold blkRead
  cases regAt o with
  | none => rfl
  | some r => exact regRead_events r es s

/-- A supported read records what the offset holds and does nothing else (R73). -/
theorem step_read_records {s : State} {o : Nat} {rest : List Event} (h : s.events = .read 32 o :: rest)
    (h4 : o % 4 = 0) (hlt : o < blkBytes) :
    step s = .next { s with events := rest, readLog := s.readLog ++ [blkRead o s] } := by
  rw [step_read h h4 hlt, blkRead_events]

/-- The written-out read column of the map is `regRead` at every register's offset (R20). -/
theorem registerImage_eq_map (s : State) :
    registerImage s = allRegs.map (fun r => (regOffset r, (regRead r s).toNat)) := by
  have hext : ∀ {w : Nat} (x : BitVec w), w ≤ 32 → (x.zeroExtend 32).toNat = x.toNat :=
    fun x hw => BitVec.toNat_setWidth_of_le hw
  simp only [registerImage, allRegs, List.map_cons, List.map_nil, regOffset, regRead, toNat_dmaStateWord, hext,
    Nat.reduceLeDiff]

/-- Settles O19: an offset of the image is a register's, and elsewhere stands the window or nothing. -/
theorem hostReadHasNoSideEffect : Obligations.HostReadHasNoSideEffect := by
  intro s o rest h4 hlt h
  refine ⟨blkRead o s, step_read_records h h4 hlt, fun p hp ho => ?_, ?_, fun hw => ?_, fun hu => ?_⟩
  · rw [registerImage_eq_map] at hp
    obtain ⟨r, _, rfl⟩ := List.mem_map.mp hp
    subst ho
    rw [blkRead_reg]
  · rintro r rfl
    exact blkRead_reg r s
  · obtain ⟨k, rfl⟩ := Nat.exists_eq_add_of_le hw
    rw [toNat_blkRead_window, Nat.add_sub_cancel_left]
  · exact blkRead_of_no_register (regAt_unassigned hu) (unassignedOffset_lt hu) s

/-- Settles O20: the second word of an entry is its count and its flags side by side, as `memRead_add` says. -/
theorem prdWindowShowsEntries : Obligations.PrdWindowShowsEntries := by
  refine ⟨fun s k rest hk h => ?_, fun s i _ => ⟨?_, ?_⟩⟩
  · rw [step_read_records h (by omega) (by show _ < 0x400; omega), blkRead_window]
  · exact blkRead_window (8 * i) s
  · have hsecond : 0x204 + 8 * i = 0x200 + (8 * i + 4) := by omega
    have hsplit : memRead s.table (8 * i + 4) 4
        = memRead s.table (8 * i + 4) 2 + 256 ^ 2 * memRead s.table (8 * i + 6) 2 := memRead_add 2 2 _ _
    have hcount := memRead_lt 2 s.table (8 * i + 4)
    have hflags := memRead_lt 2 s.table (8 * i + 6)
    rw [hsecond, toNat_blkRead_window, hsplit]
    simp only [entryAt, BitVec.toNat_ofNat]
    omega

/-- Settles O21. -/
theorem unsupportedAccessRefused : Obligations.UnsupportedAccessRefused := by
  intro s width o v rest hbad h
  by_cases hwidth : width = 32
  · have hoff : o % 4 ≠ 0 := hbad.resolve_left (not_not.mpr hwidth)
    refine ⟨.accessUnaligned, ?_⟩
    rcases h with h | h <;> rw [step_of_events h] <;> simp [stepEvent, hostWrite, hostRead, hwidth, hoff]
  · refine ⟨.accessWidth, ?_⟩
    rcases h with h | h <;> rw [step_of_events h] <;> simp [stepEvent, hostWrite, hostRead, hwidth]

/-! ### Reads of the engine (R82, R215) -/

/-- The status byte as a number: bits 7:3 are free (R215). -/
theorem toNat_bmStatusByte (b : BmStatus) :
    (bmStatusByte b).toNat = b.active.toNat + b.err.toNat * 2 + b.int.toNat * 4 + b.high.toNat * 8 := by
  simp only [bmStatusByte, toNat_append_eq_add, BitVec.toNat_ofBool]
  omega

/-- Settles O50: the value is `bmRegValue`, register by register. -/
theorem engineReadHasNoSideEffect : Obligations.EngineReadHasNoSideEffect := by
  intro s r rest h
  refine ⟨bmRegValue r s, ?_, ?_, ?_, ?_⟩
  · rw [step_of_events h]
    cases r <;> rfl
  · rintro rfl
    exact BitVec.toNat_setWidth_of_le (by decide)
  · rintro rfl
    rfl
  · rintro rfl
    have hbyte := (bmStatusByte (bmStatusNow s)).isLt
    have hbits := toNat_bmStatusByte (bmStatusNow s)
    have hactive := Bool.toNat_le s.engine.active
    have herr := Bool.toNat_le s.engine.err
    have hint := Bool.toNat_le s.engine.int
    have hvalue : (bmRegValue .status s).toNat = (bmStatusByte (bmStatusNow s)).toNat :=
      BitVec.toNat_setWidth_of_le (by decide)
    rw [hvalue]
    refine ⟨hbyte, ?_⟩
    simp only [bmStatusNow] at hbits ⊢
    omega

end Sys2Proof.Machine
end

section
/-! SUPPORT. When the engine reads the table, and what may change under it (spec/20_memory.md R72, R83;
spec/43_dma_engine.md R202, R204, R215). -/

namespace Sys2Proof.Machine

/-! ### An engine that does not run (R83, R215) -/

theorem engineRunning_eq_false_iff (s : State) :
    engineRunning s = false ↔ s.engine.cmd.getLsbD 0 = false ∨ s.engine.active = false :=
  Bool.and_eq_false_iff

theorem engineTraffic_of_halted {s : State} (h : engineRunning s = false) : engineTraffic s = [] := by
  rw [engineTraffic, engineWalk_of_halted s h, List.map_nil]

theorem walkRunsPast_of_halted {s : State} (h : engineRunning s = false) : walkRunsPast s = false := by
  rw [walkRunsPast, h, Bool.false_and]

@[simp] theorem stopCore_engine (s : State) : (stopCore s).engine = engineStopped s.dma s.engine := by
  rw [stopCore_frame]
@[simp] theorem stopCore_table (s : State) : (stopCore s).table = s.table := by rw [stopCore_frame]

/-- An effective stop halts the engine (R202). -/
theorem stopCore_halts {s : State} (h : s.dma ≠ .inactive) :
    (stopCore s).engine.cmd.getLsbD 0 = false ∧ (stopCore s).engine.active = false := by
  rw [stopCore_engine, engineStopped, if_neg h]
  exact ⟨BitVec.getLsbD_zero, rfl⟩

/-- Without a program the engine is halted already (R202, R272). -/
theorem Inv.halted_of_inactive {s : State} (hs : Inv s) (h : s.dma = .inactive) :
    s.engine.cmd.getLsbD 0 = false ∧ s.engine.active = false := by
  have hcmd : s.engine.cmd.getLsbD 0 = false := by
    refine Bool.eq_false_iff.mpr fun hstart => ?_
    have hstatus := hs.start_iff_program.mp hstart
    rw [h] at hstatus
    cases hstatus
  exact ⟨hcmd, Bool.eq_false_iff.mpr fun hact => Bool.eq_false_iff.mp hcmd (hs.active_started hact)⟩

/-- Settles O56: the clauses are the views of an engine that does not run, and a stop is one way to it. -/
theorem haltedEngineReadsNoEntry : Obligations.HaltedEngineReadsNoEntry := by
  refine fun s => ⟨fun h => ?_, fun hd => ?_⟩
  · have hrun := (engineRunning_eq_false_iff s).mpr h
    exact ⟨engineWalk_of_halted s hrun, engineTraffic_of_halted hrun, walkRunsPast_of_halted hrun⟩
  · obtain ⟨hcmd, _⟩ := stopCore_halts hd
    have hrun : engineRunning (finish .ok (stopCore s)) = false :=
      (engineRunning_eq_false_iff _).mpr (.inl hcmd)
    exact ⟨_, rfl, engineWalk_of_halted _ hrun, engineTraffic_of_halted hrun⟩

/-- Settles O44: STARTDMA's stop halts a program's engine, and without a program the invariant says that it is
halted. -/
theorem tableRewrittenOnlyWhileHalted : Obligations.TableRewrittenOnlyWhileHalted := by
  intro s hs
  have hhalt : (stopCore s).engine.cmd.getLsbD 0 = false ∧ (stopCore s).engine.active = false := by
    by_cases hd : s.dma = .inactive
    · rw [stopCore, if_pos hd]
      exact hs.halted_of_inactive hd
    · exact stopCore_halts hd
  obtain ⟨hcmd, hact⟩ := hhalt
  have hrun : engineRunning (stopCore s) = false := (engineRunning_eq_false_iff _).mpr (.inl hcmd)
  exact ⟨hcmd, hact, engineWalk_of_halted _ hrun, stopCore_table s, by rw [armed],
    by rw [armed_engine, stopCore_engine]⟩

/-! ### Host writes beside a program (R72) -/

/-- What the engine walks depends on the engine and the table alone. -/
theorem engineWalk_congr {s t : State} (hengine : t.engine = s.engine) (htable : t.table = s.table) :
    engineWalk t = engineWalk s := by
  have hentry : engineEntry t = engineEntry s := by
    funext i
    rw [engineEntry, engineEntry, hengine, htable]
  rw [engineWalk, engineWalk, engineRunning, engineRunning, engineTable, engineTable, hentry, hengine]

/-- Settles O43: such a write is `regWrite`, whose frame holds the table, the engine and STATE. -/
theorem hostWritesLeaveProgramAlone : Obligations.HostWritesLeaveProgramAlone := by
  intro s r v rest hr h
  have hne : r ≠ .opr := by rintro rfl; cases hr
  refine ⟨regWrite r v { s with events := rest }, ?_, by simp, by simp, engineWalk_congr ?_ ?_, by simp⟩
  · rw [step_write h (regOffset_aligned r) (regOffset_lt r), blkWrite_reg r v _ hne]
  all_goals simp

end Sys2Proof.Machine
end

section
/-! SUPPORT. A provider that keeps its duties, and that no allowed event stops the machine (R162, R230). -/

namespace Sys2Proof.Machine

/-! ### The build meets no broken duty (R162) -/

/-- What dutiful answers say at a query: the provider ends the transfer, or its segment meets the duties and
the answers behind it are dutiful for what remains. -/
theorem answersDutiful_query {s : State} {rem : Nat} (pos : Nat) (h0 : rem ≠ 0)
    (h : answersDutiful s.segAnswers rem = true) :
    segAnswer pos rem s = none ∨
    ∃ g, segAnswer pos rem s = some g ∧ g.meetsDuty rem = true ∧
      answersDutiful s.segAnswers.tail (rem - g.len) = true := by
  unfold segAnswer
  cases ha : s.segAnswers with
  | nil => rw [ha] at h; simp [answersDutiful, h0] at h
  | cons a as =>
    rw [ha] at h
    cases a with
    | none => exact .inl rfl
    | some g =>
      simp only [answersDutiful, Bool.or_eq_true, beq_iff_eq, h0, false_or, Bool.and_eq_true] at h
      obtain ⟨hduty, hrest⟩ := h
      exact .inr ⟨g, rfl, hduty, hrest⟩

/-- The loop on dutiful answers ends in a result code, built or failed (R162, R230). -/
theorem buildLoop_dutiful (fuel : Nat) : ∀ (slots pos rem : Nat) (s : State), slots ≤ prdMax →
    answersDutiful s.segAnswers rem = true → buildLoop fuel slots pos rem s ≠ .brokenDuty := by
  induction fuel with
  | zero => intro slots pos rem s _ _ h; cases h
  | succ fuel ih =>
    intro slots pos rem s hs hduties
    rw [buildLoop_succ _ _ _ _ _ hs]
    by_cases h0 : rem = 0
    · simp [h0]
    · rcases answersDutiful_query pos h0 hduties with hq | ⟨g, hq, hduty, hrest⟩
      · simp [h0, hq]
      · simp only [h0, hq, hduty, if_false, if_true]
        split
        · exact ih _ _ _ _ ((Nat.sub_le _ _).trans hs) hrest
        · simp

/-- STARTDMA completes while the provider keeps its duties (R230). -/
theorem execStartdma_completes (s : State) (h : answersDutiful s.segAnswers s.cmdByteCount.toNat = true) :
    ∃ t, execStartdma s = .next t := by
  have hbuild : build (armed s) ≠ .brokenDuty := by
    unfold build
    split
    · refine buildLoop_dutiful _ _ _ _ _ (Nat.le_refl _) ?_
      rw [armed_segAnswers, armed_cmdByteCount]
      exact h
    · simp
  unfold execStartdma
  cases hb : build (armed s) with
  | built b => exact ⟨_, rfl⟩
  | failed c b => exact ⟨_, rfl⟩
  | brokenDuty => exact absurd hb hbuild

/-! ### Allowed events (R71, R230, R272) -/

/-- Every operation completes, STARTDMA while the provider keeps its duties (R230). -/
theorem exec_completes (i : Instr) (s : State) (h : answersDutiful s.segAnswers s.cmdByteCount.toNat = true) :
    ∃ t, exec i s = .next t := by
  cases i with
  | setlba28 u =>
    show ∃ t, execSetlba28 u s = .next t
    unfold execSetlba28
    split <;> exact ⟨_, rfl⟩
  | startdma => exact execStartdma_completes s h
  | onint =>
    show ∃ t, execOnint s = .next t
    unfold execOnint
    split <;> exact ⟨_, rfl⟩
  | nop | cmdreset | setxlba | getxlba | xzero | stopdma => exact ⟨_, rfl⟩

/-- A host write inside the BLK space completes: an operation, a report, a store, or nothing (R72, R106). -/
theorem blkWrite_completes (o : Nat) (v : Word) (s : State)
    (h : answersDutiful s.segAnswers s.cmdByteCount.toNat = true) : ∃ t, blkWrite o v s = .next t := by
  cases hr : regAt o with
  | none => exact ⟨_, blkWrite_of_no_register hr v s⟩
  | some r =>
    obtain rfl := regAt_some hr
    by_cases hopr : r = .opr
    · subst hopr
      show ∃ t, issue v s = .next t
      cases hd : decode v with
      | ok i =>
        rw [issue_of_decode hd]
        exact exec_completes i { s with opr := v } h
      | error d => exact ⟨_, issue_of_illegal hd s⟩
    · exact ⟨_, blkWrite_reg r v s hopr⟩

/-- The accesses the port supports, as `eventAllowed` writes them (R71). -/
theorem supported_access_iff (width o : Nat) :
    (width == 32 && o % 4 == 0 && decide (o < 0x400)) = true ↔ width = 32 ∧ o % 4 = 0 ∧ o < blkBytes := by
  simp [blkBytes, and_assoc]

/-- Settles O47: one case for each kind of event. -/
theorem allowedEventsNeverStop : Obligations.AllowedEventsNeverStop := by
  intro s e rest h hallowed hduties
  cases e with
  | write width o v =>
    obtain ⟨rfl, h4, hlt⟩ := (supported_access_iff width o).mp hallowed
    rw [step_write h h4 hlt]
    exact blkWrite_completes o v { s with events := rest } hduties
  | read width o =>
    obtain ⟨rfl, h4, hlt⟩ := (supported_access_iff width o).mp hallowed
    exact ⟨_, step_read h h4 hlt⟩
  | bmWrite r v =>
    rw [step_of_events h]
    simp only [eventAllowed, Bool.and_eq_true, decide_eq_true_eq, Bool.not_eq_true'] at hallowed
    obtain ⟨hdma, hstart⟩ := hallowed
    exact ⟨_, (if_neg hdma).trans (if_neg (by simpa using hstart))⟩
  | bmRead r => exact ⟨_, step_of_events h⟩
  | done b =>
    rw [step_of_events h]
    exact ⟨_, if_pos hallowed⟩

end Sys2Proof.Machine
end

section
/-! SUPPORT. The table a covered STARTDMA leaves and what the engine walks of it (spec/42_prd_builder.md R165 to
R173; spec/43_dma_engine.md R204, R206, R215). -/

namespace Sys2Proof.Machine

/-! ### The pieces of a transfer (R172, R174) -/

theorem totalBytes_append (gs hs : List Segment) : totalBytes (gs ++ hs) = totalBytes gs + totalBytes hs := by
  simp [totalBytes]

theorem segmentPlaced_iff (g : Segment) : segmentPlaced g = true ↔ 1 ≤ g.len ∧ g.addr + g.len ≤ 2 ^ 32 := by
  simp [segmentPlaced]

/-- The pieces of a transfer sum to it (R172). -/
theorem totalBytes_chainPieces (gs : List Segment) (h : ∀ g ∈ gs, segmentPlaced g = true) :
    totalBytes (chainPieces gs) = totalBytes gs := by
  induction gs with
  | nil => rfl
  | cons g gs ih =>
    obtain ⟨hlen, _⟩ := (segmentPlaced_iff g).mp (h g List.mem_cons_self)
    rw [chainPieces_cons, totalBytes_append, totalBytes_cons, segmentPieces_total g.addr g.len hlen,
      ih fun g' hg' => h g' (List.mem_cons_of_mem g hg')]

/-- A piece of a transfer has 1 to 0x10000 bytes of the 32-bit address space (R162, R171). -/
theorem chainPieces_bounds {gs : List Segment} (h : ∀ g ∈ gs, segmentPlaced g = true) :
    ∀ q ∈ chainPieces gs, 1 ≤ q.len ∧ q.len ≤ block64K ∧ q.addr + q.len ≤ 2 ^ 32 := by
  intro q hq
  obtain ⟨g, hg, hq⟩ := List.mem_flatMap.mp hq
  obtain ⟨hlen, hend⟩ := (segmentPlaced_iff g).mp (h g hg)
  obtain ⟨hpos, hblock, hin, _⟩ := segmentPieces_bounds g.addr g.len hlen q hq
  exact ⟨hpos, hblock, hin.trans hend⟩

theorem chainPieces_ne_nil {gs : List Segment} (h : gs ≠ []) : chainPieces gs ≠ [] := by
  intro hnil
  have hlen := length_le_chainPieces gs
  rw [hnil] at hlen
  exact h (List.length_eq_zero_iff.mp (Nat.le_zero.mp hlen))

/-! ### The entry of a piece, as the engine reads it (R39, R171, R215) -/

@[simp] theorem entryEot_pieceEntry (g : Segment) (last : Bool) : entryEot (pieceEntry g last) = last := by
  cases last <;> simp [entryEot, pieceEntry]

@[simp] theorem entryEot_stopEntry : entryEot stopEntry = true := rfl

theorem bufferPtr_pieceEntry {g : Segment} (last : Bool) (h : g.addr < 2 ^ 32) :
    (pieceEntry g last).bufferPtr.toNat = g.addr :=
  (BitVec.toNat_ofNat _ _).trans (Nat.mod_eq_of_lt h)

/-- A piece of a whole block is written with count 0, which this reading of the engine takes for the block;
every other count is the piece's own (R171, D26). -/
theorem entryBytes_pieceEntry {g : Segment} (last : Bool) (hpos : 1 ≤ g.len) (hblock : g.len ≤ block64K) :
    entryBytes .bytes65536 (pieceEntry g last) = some g.len := by
  have hcount : (pieceEntry g last).byteCount.toNat = g.len % block64K := BitVec.toNat_ofNat _ _
  rcases Nat.lt_or_eq_of_le hblock with hlt | heq
  · rw [Nat.mod_eq_of_lt hlt] at hcount
    have hne : (pieceEntry g last).byteCount ≠ 0 := by
      intro h0
      rw [h0] at hcount
      exact absurd hcount.symm (Nat.one_le_iff_ne_zero.mp hpos)
    rw [entryBytes, if_neg hne, hcount]
  · rw [heq, Nat.mod_self] at hcount
    have h0 : (pieceEntry g last).byteCount = 0 := BitVec.eq_of_toNat_eq hcount
    rw [entryBytes, if_pos h0, heq]

/-! ### The entries of a chain -/

/-- The entries of a list of pieces, EOT on the very last one if `last` says so: what `writePieces` writes
(`entries_writePieces`). -/
def chainEntries (last : Bool) : List Segment → List PrdEntry
  | [] => []
  | g :: gs => pieceEntry g (last && gs.isEmpty) :: chainEntries last gs

/-- The slots `writePieces` writes hold the entries of the chain (R160). -/
theorem entries_writePieces (last : Bool) (gs : List Segment) : ∀ (i : Nat) (m : Memory),
    (List.range' i gs.length).map (entryAt (writePieces last i gs m)) = chainEntries last gs := by
  induction gs with
  | nil => intro i m; rfl
  | cons g gs ih =>
    intro i m
    have hfirst := entryAt_writePieces last (g :: gs) i 0 m g rfl
    have hlast : decide (0 + 1 = (g :: gs).length) = gs.isEmpty := by cases gs <;> simp
    rw [Nat.add_zero, hlast] at hfirst
    rw [List.length_cons, List.range'_succ, List.map_cons, hfirst, writePieces, ih, chainEntries]

/-- Behind a chain written over the stop entries the stop entries stand (R161, R173). -/
theorem entryAt_behind_chain (last : Bool) (gs : List Segment) (m : Memory) {i : Nat} (hge : gs.length ≤ i)
    (hlt : i < prdMax) : entryAt (writePieces last 0 gs (stopEntries prdMax m)) i = stopEntry := by
  rw [entryAt_writePieces_above last gs 0 i _ (by omega), entryAt_stopEntries, if_pos hlt]

/-- The 64 entries of such a table: those of the chain, and stop entries. -/
theorem entries_of_chain (last : Bool) (gs : List Segment) (m : Memory) (hlen : gs.length ≤ prdMax) :
    (List.range prdMax).map (entryAt (writePieces last 0 gs (stopEntries prdMax m)))
      = chainEntries last gs ++ List.replicate (prdMax - gs.length) stopEntry := by
  have hsplit : List.range prdMax = List.range' 0 gs.length ++ List.range' gs.length (prdMax - gs.length) := by
    have h := List.range'_append_1 (s := 0) (m := gs.length) (n := prdMax - gs.length)
    rw [Nat.zero_add, Nat.add_sub_cancel' hlen] at h
    rw [h, List.range_eq_range']
  have hbehind : (List.range' gs.length (prdMax - gs.length)).map
      (entryAt (writePieces last 0 gs (stopEntries prdMax m))) = List.replicate (prdMax - gs.length) stopEntry := by
    refine List.eq_replicate_iff.mpr ⟨by simp, fun e he => ?_⟩
    obtain ⟨i, hi, rfl⟩ := List.mem_map.mp he
    rw [List.mem_range'_1, Nat.add_sub_cancel' hlen] at hi
    obtain ⟨hge, hlt⟩ := hi
    exact entryAt_behind_chain last gs m hge hlt
  rw [hsplit, List.map_append, entries_writePieces, hbehind]

/-- What does not look at the marker reads of the entries what it reads of the pieces. -/
theorem map_chainEntries {α : Type} (last : Bool) (f : PrdEntry → α) (h : Segment → α) (gs : List Segment)
    (hf : ∀ g ∈ gs, ∀ b, f (pieceEntry g b) = h g) : (chainEntries last gs).map f = gs.map h := by
  induction gs with
  | nil => rfl
  | cons g gs ih =>
    rw [chainEntries, List.map_cons, List.map_cons, hf g List.mem_cons_self,
      ih fun g' hg' => hf g' (List.mem_cons_of_mem g hg')]

/-- In a marked chain the last entry alone carries EOT (R166). -/
theorem map_entryEot_chainEntries {gs : List Segment} (h : gs ≠ []) :
    (chainEntries true gs).map entryEot = List.replicate (gs.length - 1) false ++ [true] := by
  induction gs with
  | nil => exact absurd rfl h
  | cons g gs ih =>
    cases gs with
    | nil => simp [chainEntries]
    | cons g' gs =>
      rw [chainEntries, List.map_cons, ih (List.cons_ne_nil g' gs), entryEot_pieceEntry]
      rfl

/-- The engine walks a marked chain to its end and no further, whatever stands behind it (R215). -/
theorem throughEot_chainEntries {gs : List Segment} (h : gs ≠ []) (behind : List PrdEntry) :
    throughEot (chainEntries true gs ++ behind) = chainEntries true gs := by
  induction gs with
  | nil => exact absurd rfl h
  | cons g gs ih =>
    cases gs with
    | nil => simp [chainEntries, throughEot]
    | cons g' gs =>
      rw [chainEntries, List.cons_append, throughEot, ih (List.cons_ne_nil g' gs), entryEot_pieceEntry]
      rfl

/-- A table with a marked chain is not run past (R215). -/
theorem chainEntries_has_eot {gs : List Segment} (h : gs ≠ []) (behind : List PrdEntry) :
    (chainEntries true gs ++ behind).all (fun e => !entryEot e) = false := by
  have hlast : true ∈ (chainEntries true gs).map entryEot := by
    rw [map_entryEot_chainEntries h]
    exact List.mem_append_right _ (List.mem_singleton_self true)
  obtain ⟨e, he, heot⟩ := List.mem_map.mp hlast
  exact List.all_eq_false.mpr ⟨e, List.mem_append_left _ he, by simp [heot]⟩

/-! ### STARTDMA on segments that fit the table (R163, R168, R204) -/

/-- STARTDMA on the segments a provider lists, with a slot for each piece: the engine is started on the
pieces, marked exactly if they cover the transfer, in front of the stop entries. -/
theorem exec_startdma_of_fitting {s : State} {gs : List Segment} {rest : List SegAnswer}
    (hv : bufferValid s = true) (hpl : ∀ g ∈ gs, segmentPlaced g = true)
    (ha : s.segAnswers = gs.map some ++ rest) (hlen : (chainPieces gs).length ≤ 64)
    (htot : totalBytes gs = s.cmdByteCount.toNat
      ∨ (totalBytes gs < s.cmdByteCount.toNat ∧ ∃ r, rest = none :: r)) :
    ∃ b, exec .startdma s = .next (finish .ok (startEngine b)) ∧ b.dma = .status ∧ BuildFrame (armed s) b ∧
      b.table = writePieces (decide (totalBytes gs = s.cmdByteCount.toNat)) 0 (chainPieces gs)
        (stopEntries prdMax s.table) ∧
      b.prdCount.toNat = (chainPieces gs).length ∧
      (totalBytes gs = s.cmdByteCount.toNat → b.segAnswers = rest) := by
  obtain ⟨b, hb, hdma, hframe, htable, hcount, hanswers, _⟩ :=
    buildLoop_of_fitting gs (prdMax + 1) prdMax s.cmdPosition.toNat s.cmdByteCount.toNat (armed s) rest
      (Nat.le_refl _) (Nat.lt_succ_self _) hpl (by rw [armed_segAnswers, ha]) hlen htot
  have hfirst : 64 - prdMax = 0 := Nat.sub_self prdMax
  rw [hfirst, armed_table] at htable
  rw [hfirst, armed_prdCount, Nat.zero_add] at hcount
  refine ⟨b, ?_, hdma, hframe, htable, ?_, hanswers⟩
  · show execStartdma s = _
    rw [execStartdma, build, bufferValid_armed, if_pos hv, armed_cmdPosition, armed_cmdByteCount, hb]
  · rw [hcount]
    by_cases hgs : gs = []
    · subst hgs; rfl
    · rw [if_neg hgs, BitVec.toNat_ofNat]
      omega

/-- A stop, or an engine whose START bit is 0 already, leaves the START bit 0 for the start (R202, R264). -/
theorem engineStopped_ready {d : DmaState} {e : Engine} (h : d ≠ .inactive ∨ e.cmd.getLsbD 0 = false) :
    (engineStopped d e).cmd.getLsbD 0 = false := by
  unfold engineStopped
  split
  next hd => exact h.resolve_left (not_not.mpr hd)
  next => exact BitVec.getLsbD_zero

/-- The start command makes an engine run whose START bit was 0 (R206, R215). -/
theorem engineRunning_started (c : ResultCode) {s : State} (h : s.engine.cmd.getLsbD 0 = false) :
    engineRunning (finish c (startEngine s)) = true := by
  rw [startEngine_frame]
  simp only [engineRunning, finish_engine, h]
  cases readDirection s <;> rfl

/-- The boot duty, or the stop of a program, makes STARTDMA's start command effective (R202, R264). -/
theorem engineRunning_of_build {s b : State} (hframe : BuildFrame (armed s) b)
    (hready : s.dma ≠ .inactive ∨ s.engine.cmd.getLsbD 0 = false) :
    engineRunning (finish .ok (startEngine b)) = true := by
  have hengine : b.engine = engineStopped s.dma s.engine := by rw [hframe]; exact armed_engine s
  exact engineRunning_started .ok (by rw [hengine]; exact engineStopped_ready hready)

/-- A base that meets the placement duty goes to the engine as it stands (R28, R79, R200). -/
theorem and_dwordMask_of_placed {base : Word} (h : placementMet base = true) : base &&& 0xFFFFFFFC#32 = base := by
  simp only [placementMet, Bool.and_eq_true, decide_eq_true_eq] at h
  obtain ⟨⟨haligned, _⟩, _⟩ := h
  apply BitVec.eq_of_toNat_eq
  rw [toNat_and_dwordMask]
  omega

/-- With PRDBASE placed as R79 asks, the started engine reads the block's table. -/
theorem engineTable_started (c : ResultCode) {s : State} (h : placementMet s.prdBase = true) :
    engineTable (finish c (startEngine s)) = (List.range prdMax).map (entryAt s.table) := by
  rw [startEngine_frame]
  refine engineTable_of_placed _ ?_
  show placementMet (s.prdBase &&& 0xFFFFFFFC#32) = true
  rw [and_dwordMask_of_placed h, h]

/-- So after a build on a placed PRDBASE it reads the chain, and stop entries behind it. -/
theorem engineTable_of_build {s b : State} {last : Bool} {gs : List Segment} (hframe : BuildFrame (armed s) b)
    (htable : b.table = writePieces last 0 gs (stopEntries prdMax s.table)) (hlen : gs.length ≤ prdMax)
    (hplaced : placementMet s.prdBase = true) :
    engineTable (finish .ok (startEngine b))
      = chainEntries last gs ++ List.replicate (prdMax - gs.length) stopEntry := by
  have hbase : b.prdBase = s.prdBase := by rw [hframe]; exact armed_prdBase s
  rw [engineTable_started .ok (by rw [hbase, hplaced]), htable, entries_of_chain last gs _ hlen]

/-- Settles O27: the started engine runs on the marked chain of the pieces, walks it to its end, and reads each
entry as its piece. -/
theorem engineWalksExactlyTheTransfer : Obligations.EngineWalksExactlyTheTransfer := by
  intro s gs rest hv hpl htot hgs ha hlen hplaced hready
  obtain ⟨b, hexec, _, hframe, htable, hcount, _⟩ := exec_startdma_of_fitting hv hpl ha hlen (.inl htot)
  rw [decide_eq_true htot] at htable
  have hne := chainPieces_ne_nil hgs
  have hentries := engineTable_of_build hframe htable hlen hplaced
  have hwalk : engineWalk (finish .ok (startEngine b)) = chainEntries true (chainPieces gs) := by
    rw [engineWalk_of_running _ (engineRunning_of_build hframe hready), hentries, throughEot_chainEntries hne]
  refine ⟨_, hexec, ?_, ?_, ?_, (totalBytes_chainPieces gs hpl).trans htot, ?_, fun i hge hlt => ?_⟩
  · rw [walkRunsPast, hentries, chainEntries_has_eot hne, Bool.and_false]
  · rw [hwalk]
    refine map_chainEntries true _ _ _ fun g hg last => ?_
    obtain ⟨hpos, hblock, hend⟩ := chainPieces_bounds hpl g hg
    rw [bufferPtr_pieceEntry last (by omega), entryBytes_pieceEntry last hpos hblock]
  · rw [hwalk, map_entryEot_chainEntries hne]
  · rw [startEngine_frame]
    exact hcount
  · have hkept : (finish .ok (startEngine b)).table = b.table := by rw [startEngine_frame]; rfl
    rw [hkept, htable, entryAt_behind_chain true _ _ hge hlt, entryEot_stopEntry]

end Sys2Proof.Machine
end

section
/-! SUPPORT. The operation word and its five fields, what a row of the opcode map selects, the round trip of decoder
and encoder, and the statements about the encoding (spec/30_encoding.md R101 to R111). -/

namespace Sys2Proof.Machine

/-! ### The fields of a word (R101, R102) -/

/-- Bits [15:12] of a word, which no operation reads (R105). -/
def gapField (w : Word) : BitVec 4 := w.extractLsb' 12 4

/-- Bits [31:24] of a word, which no operation reads (R105). -/
def topField (w : Word) : Byte := w.extractLsb' 24 8

theorem toNat_opcField (w : Word) : (opcField w).toNat = w.toNat % 256 := by
  simp [opcField]

theorem toNat_unitField (w : Word) : (unitField w).toNat = w.toNat / 2 ^ 8 % 16 := by
  simp [unitField, Nat.shiftRight_eq_div_pow]

theorem toNat_gapField (w : Word) : (gapField w).toNat = w.toNat / 2 ^ 12 % 16 := by
  simp [gapField, Nat.shiftRight_eq_div_pow]

theorem toNat_xcmdField (w : Word) : (xcmdField w).toNat = w.toNat / 2 ^ 16 % 256 := by
  simp [xcmdField, Nat.shiftRight_eq_div_pow]

theorem toNat_topField (w : Word) : (topField w).toNat = w.toNat / 2 ^ 24 := by
  have hw := w.isLt
  simp only [topField, BitVec.extractLsb'_toNat, Nat.shiftRight_eq_div_pow]
  omega

/-- The five fields cover the word. -/
theorem word_eq_iff_fields (w v : Word) :
    w = v ↔ opcField w = opcField v ∧ unitField w = unitField v ∧ gapField w = gapField v ∧
      xcmdField w = xcmdField v ∧ topField w = topField v := by
  refine ⟨fun h => by simp [h], fun h => BitVec.eq_of_toNat_eq ?_⟩
  simp only [← BitVec.toNat_inj, toNat_opcField, toNat_unitField, toNat_gapField, toNat_xcmdField,
    toNat_topField] at h
  omega

/-- The word of given fields, in numbers (R101). -/
theorem toNat_opWord (x : Byte) (u : BitVec 4) (c : Byte) :
    (opWord x u c).toNat = c.toNat + u.toNat * 2 ^ 8 + x.toNat * 2 ^ 16 := by
  simp only [opWord, toNat_append_eq_add, BitVec.toNat_ofNat]
  omega

@[simp] theorem unitField_opWord (x : Byte) (u : BitVec 4) (c : Byte) : unitField (opWord x u c) = u := by
  have hu := u.isLt
  have hc := c.isLt
  apply BitVec.eq_of_toNat_eq
  rw [toNat_unitField, toNat_opWord]
  omega

@[simp] theorem xcmdField_opWord (x : Byte) (u : BitVec 4) (c : Byte) : xcmdField (opWord x u c) = x := by
  have hx := x.isLt
  have hu := u.isLt
  have hc := c.isLt
  apply BitVec.eq_of_toNat_eq
  rw [toNat_xcmdField, toNat_opWord]
  omega

/-- The word of SETLBA28, in numbers (R101, R110). -/
theorem toNat_encode_setlba28 (u : BitVec 4) : (encode (.setlba28 u)).toNat = 0x10 + u.toNat * 2 ^ 8 := by
  simp [encode, toNat_opWord]

/-- The word of SETXLBA, in numbers (R101, R110). -/
theorem toNat_encode_setxlba (u : BitVec 4) (x : Byte) :
    (encode (.setxlba u x)).toNat = 0x11 + u.toNat * 2 ^ 8 + x.toNat * 2 ^ 16 := by
  simp [encode, toNat_opWord]

/-! ### What a row of the opcode map selects (R104, R105) -/

/-- The mask compares a word with the match value field by field (R104). -/
theorem selects_iff_fields (r : OpcodeRow) (w : Word) :
    r.selects w = true ↔
      opcField w &&& opcField r.mask = opcField r.matchWord ∧
      unitField w &&& unitField r.mask = unitField r.matchWord ∧
      gapField w &&& gapField r.mask = gapField r.matchWord ∧
      xcmdField w &&& xcmdField r.mask = xcmdField r.matchWord ∧
      topField w &&& topField r.mask = topField r.matchWord := by
  rw [OpcodeRow.selects, beq_iff_eq, word_eq_iff_fields]
  simp only [opcField, unitField, gapField, xcmdField, topField, BitVec.extractLsb'_and]

/-- A row without operands selects its match value alone (R104, R105). -/
theorem selects_fullMask (op : Opcode) (m w : Word) :
    OpcodeRow.selects ⟨op, m, 0xFFFFFFFF#32⟩ w = true ↔ w.toNat = m.toNat := by
  have hfull : w &&& 0xFFFFFFFF#32 = w := BitVec.and_allOnes
  rw [OpcodeRow.selects, beq_iff_eq, hfull, BitVec.toNat_inj]

/-- The row of SETLBA28 leaves UNIT free (R104, R105). -/
theorem selects_setlba28 (w : Word) :
    OpcodeRow.selects ⟨.setlba28, 0x00000010#32, 0xFFFFF0FF#32⟩ w = true ↔
      w.toNat % 256 = 0x10 ∧ w.toNat / 2 ^ 12 = 0 := by
  have hmask : opcField 0xFFFFF0FF#32 = .allOnes 8 ∧ unitField 0xFFFFF0FF#32 = 0#4 ∧
      gapField 0xFFFFF0FF#32 = .allOnes 4 ∧ xcmdField 0xFFFFF0FF#32 = .allOnes 8 ∧
      topField 0xFFFFF0FF#32 = .allOnes 8 := by decide
  have hmatch : opcField 0x10#32 = 0x10#8 ∧ unitField 0x10#32 = 0#4 ∧ gapField 0x10#32 = 0#4 ∧
      xcmdField 0x10#32 = 0#8 ∧ topField 0x10#32 = 0#8 := by decide
  simp only [selects_iff_fields, hmask, hmatch, BitVec.and_allOnes, BitVec.and_zero, true_and, ← BitVec.toNat_inj,
    toNat_opcField, toNat_gapField, toNat_xcmdField, toNat_topField, BitVec.toNat_ofNat]
  omega

/-- The row of SETXLBA leaves UNIT and XCMD free (R104, R105). -/
theorem selects_setxlba (w : Word) :
    OpcodeRow.selects ⟨.setxlba, 0x00000011#32, 0xFF00F0FF#32⟩ w = true ↔
      w.toNat % 256 = 0x11 ∧ w.toNat / 2 ^ 24 = 0 ∧ w.toNat / 2 ^ 12 % 16 = 0 := by
  have hmask : opcField 0xFF00F0FF#32 = .allOnes 8 ∧ unitField 0xFF00F0FF#32 = 0#4 ∧
      gapField 0xFF00F0FF#32 = .allOnes 4 ∧ xcmdField 0xFF00F0FF#32 = 0#8 ∧
      topField 0xFF00F0FF#32 = .allOnes 8 := by decide
  have hmatch : opcField 0x11#32 = 0x11#8 ∧ unitField 0x11#32 = 0#4 ∧ gapField 0x11#32 = 0#4 ∧
      xcmdField 0x11#32 = 0#8 ∧ topField 0x11#32 = 0#8 := by decide
  simp only [selects_iff_fields, hmask, hmatch, BitVec.and_allOnes, BitVec.and_zero, true_and, ← BitVec.toNat_inj,
    toNat_opcField, toNat_gapField, toNat_topField, BitVec.toNat_ofNat]
  omega

/-- With the OPC of an operation without operands, only the word of that OPC alone is legal (R105). -/
theorem eq_iff_legal_of_noOperand {n c : Nat} (hc : c ∈ [0x00, 0x01, 0x12, 0x13, 0x20, 0x21, 0x22]) :
    n = c ↔ n % 256 = c % 256 ∧ illegalWord n = false := by
  have hlt : c < 256 := by revert c; decide
  have h10 : c ≠ 0x10 := by rintro rfl; revert hc; decide
  have h11 : c ≠ 0x11 := by rintro rfl; revert hc; decide
  have hlegal (hopc : n % 256 = c) : illegalWord n = false ↔ n / 2 ^ 8 = 0 := by
    simp only [illegalWord, hopc, if_neg h10, if_neg h11, if_pos hc, decide_eq_false_iff_not, not_not]
  rw [Nat.mod_eq_of_lt hlt, and_congr_right hlegal]
  omega

/-- A row selects exactly the legal words with its OPC (R104, R105). -/
theorem selects_iff_legal {r : OpcodeRow} (hr : r ∈ opcodeTable) (w : Word) :
    r.selects w = true ↔ opcField w = opcField r.matchWord ∧ illegalWord w.toNat = false := by
  rw [← BitVec.toNat_inj, toNat_opcField, toNat_opcField]
  simp only [opcodeTable, List.mem_cons, List.not_mem_nil, or_false] at hr
  rcases hr with rfl | rfl | rfl | rfl | rfl | rfl | rfl | rfl | rfl
  case inr.inr.inl =>
    rw [selects_setlba28]
    exact and_congr_right fun hopc => by simp [illegalWord, hopc]
  case inr.inr.inr.inl =>
    rw [selects_setxlba]
    exact and_congr_right fun hopc => by simp [illegalWord, hopc]
  all_goals
    rw [selects_fullMask]
    exact eq_iff_legal_of_noOperand (by decide)

/-- A legal word has the OPC of a row (R105, R106). -/
theorem exists_row_of_legal {w : Word} (h : illegalWord w.toNat = false) :
    ∃ r ∈ opcodeTable, opcField w = opcField r.matchWord := by
  have hlisted : ∀ c ∈ [0x10, 0x11, 0x00, 0x01, 0x12, 0x13, 0x20, 0x21, 0x22],
      ∃ r ∈ opcodeTable, c = (opcField r.matchWord).toNat := by decide
  simp only [← BitVec.toNat_inj]
  refine hlisted _ ?_
  rw [toNat_opcField]
  simp only [illegalWord] at h
  split_ifs at h with h10 h11 hrest
  · simp [h10]
  · simp [h11]
  · exact List.mem_cons_of_mem _ (List.mem_cons_of_mem _ hrest)

/-- The OPC values of the map are distinct (R104). -/
theorem row_eq_of_opc_eq : ∀ r ∈ opcodeTable, ∀ r' ∈ opcodeTable,
    opcField r.matchWord = opcField r'.matchWord → r = r' := by decide

/-! ### The decoder and the encoder (R104 to R106) -/

/-- Settles O3: a row a word selects has the word's OPC, and no two rows have the same. -/
theorem opcodeRowsDisjoint : Obligations.OpcodeRowsDisjoint := by
  intro w r hr r' hr' h h'
  obtain ⟨hopc, _⟩ := (selects_iff_legal hr w).mp h
  obtain ⟨hopc', _⟩ := (selects_iff_legal hr' w).mp h'
  exact row_eq_of_opc_eq r hr r' hr' (hopc.symm.trans hopc')

/-- A word decodes by any row it selects: there is no other (R104). -/
theorem decode_of_selects {r : OpcodeRow} {w : Word} (hr : r ∈ opcodeTable) (h : r.selects w = true) :
    decode w = .ok (Instr.ofWord r.op w) := by
  unfold decode
  cases hfind : opcodeTable.find? (fun r => r.selects w) with
  | none => exact absurd h (List.find?_eq_none.mp hfind r hr)
  | some r' =>
    have hsel : r'.selects w = true := by simpa using List.find?_some hfind
    rw [opcodeRowsDisjoint w r hr r' (List.mem_of_find?_eq_some hfind) h hsel]

/-- The decoder answers with an operation exactly by a row the word selects (R104). -/
theorem decode_eq_ok_iff {w : Word} {i : Instr} :
    decode w = .ok i ↔ ∃ r ∈ opcodeTable, r.selects w = true ∧ Instr.ofWord r.op w = i := by
  constructor
  · intro h
    obtain ⟨r, hr, _, hsel⟩ := decode_selects h
    rw [decode_of_selects hr hsel] at h
    exact ⟨r, hr, hsel, Except.ok.inj h⟩
  · rintro ⟨r, hr, hsel, rfl⟩
    exact decode_of_selects hr hsel

/-- Settles O5: the rows select the legal words, and every legal word has the OPC of a row. -/
theorem legalWordsDecode : Obligations.LegalWordsDecode := by
  intro w
  constructor
  · intro hlegal
    obtain ⟨r, hr, hopc⟩ := exists_row_of_legal hlegal
    exact ⟨_, decode_of_selects hr ((selects_iff_legal hr w).mpr ⟨hopc, hlegal⟩)⟩
  · rintro ⟨i, hi⟩
    obtain ⟨r, hr, hsel, _⟩ := decode_eq_ok_iff.mp hi
    exact ((selects_iff_legal hr w).mp hsel).2

/-- The word of an instruction selects the instruction's own row (R102, R104, R105). -/
theorem encode_selects_own_row (i : Instr) : Laws.SelectsOwnRow.Statement i := by
  cases i with
  | nop => exact Laws.SelectsOwnRow.nop
  | cmdreset => exact Laws.SelectsOwnRow.cmdreset
  | setlba28 u => exact Laws.SelectsOwnRow.setlba28 u
  | setxlba u x => exact Laws.SelectsOwnRow.setxlba u x
  | getxlba => exact Laws.SelectsOwnRow.getxlba
  | xzero => exact Laws.SelectsOwnRow.xzero
  | startdma => exact Laws.SelectsOwnRow.startdma
  | stopdma => exact Laws.SelectsOwnRow.stopdma
  | onint => exact Laws.SelectsOwnRow.onint

/-- The fields of an instruction's word are its operands (R101, R102). -/
theorem ofWord_encode (i : Instr) : Instr.ofWord i.opcode (encode i) = i := by
  cases i with
  | setlba28 u => simp [Instr.opcode, Instr.ofWord, encode]
  | setxlba u x => simp [Instr.opcode, Instr.ofWord, encode]
  | _ => rfl

/-- Settles O1: the word selects the instruction's own row, and its fields are the operands. -/
theorem decodeOfEncode : Obligations.DecodeOfEncode := by
  intro i
  obtain ⟨r, hr, hop, hsel, _⟩ := encode_selects_own_row i
  rw [decode_of_selects hr hsel, hop, ofWord_encode]

/-- What a row selects is the word of its operation with the fields of the word: every other bit is fixed by
the row (R101, R104, R105). -/
theorem encode_ofWord {r : OpcodeRow} {w : Word} (hr : r ∈ opcodeTable) (h : r.selects w = true) :
    encode (Instr.ofWord r.op w) = w := by
  apply BitVec.eq_of_toNat_eq
  simp only [opcodeTable, List.mem_cons, List.not_mem_nil, or_false] at hr
  rcases hr with rfl | rfl | rfl | rfl | rfl | rfl | rfl | rfl | rfl
  case inr.inr.inl =>
    obtain ⟨hopc, hhigh⟩ := (selects_setlba28 w).mp h
    simp only [Instr.ofWord, toNat_encode_setlba28, toNat_unitField]
    omega
  case inr.inr.inr.inl =>
    obtain ⟨hopc, htop, hgap⟩ := (selects_setxlba w).mp h
    simp only [Instr.ofWord, toNat_encode_setxlba, toNat_unitField, toNat_xcmdField]
    omega
  all_goals exact ((selects_fullMask _ _ w).mp h).symm

/-- Settles O2: a decoded word selects a row, and what a row selects is the word of its operation. -/
theorem encodeOfDecode : Obligations.EncodeOfDecode := by
  intro w i h
  obtain ⟨r, hr, hsel, rfl⟩ := decode_eq_ok_iff.mp h
  exact encode_ofWord hr hsel

/-- Settles O4, by running the decoder on each word. -/
theorem sampleWordsDecode : Obligations.SampleWordsDecode := by
  unfold Obligations.SampleWordsDecode
  decide

/-- An illegal word does not decode (R105, R106). -/
theorem decode_of_illegal {w : Word} (h : illegalWord w.toNat = true) : ∃ d, decode w = .error d := by
  cases hd : decode w with
  | error d => exact ⟨d, rfl⟩
  | ok i =>
    have hlegal := (legalWordsDecode w).mpr ⟨i, hd⟩
    rw [h] at hlegal
    cases hlegal

/-- Settles O6: the write of OPR issues the word, which does not decode. -/
theorem illegalWordReported : Obligations.IllegalWordReported := by
  intro s w rest h hw
  obtain ⟨d, hd⟩ := decode_of_illegal hw
  rw [step_write h (by decide) (by decide), blkWrite_opr, issue_of_illegal hd]
  rfl

/-! ### Assembly lines (R110, R111) -/

/-- SETLBA28 with a UNIT in range (R110). -/
theorem encode_setlba28_ofNat {u : Nat} (hu : u < 16) :
    encode (.setlba28 (BitVec.ofNat 4 u)) = BitVec.ofNat 32 (0x10 + u * 2 ^ 8) := by
  apply BitVec.eq_of_toNat_eq
  simp only [toNat_encode_setlba28, BitVec.toNat_ofNat]
  omega

/-- SETXLBA with operands in range (R110). -/
theorem encode_setxlba_ofNat {u x : Nat} (hu : u < 16) (hx : x < 256) :
    encode (.setxlba (BitVec.ofNat 4 u) (BitVec.ofNat 8 x)) = BitVec.ofNat 32 (0x11 + u * 2 ^ 8 + x * 2 ^ 16) := by
  apply BitVec.eq_of_toNat_eq
  simp only [toNat_encode_setxlba, BitVec.toNat_ofNat]
  omega

/-- Settles O55: each line is well-formed, its accesses stand at the offsets of the named registers, and its word
is that of its operation. -/
theorem assembledAccesses : Obligations.AssembledAccesses := by
  refine ⟨fun r o v h4 ho hv => ?_, rfl, rfl, rfl, rfl, rfl, rfl, rfl, rfl,
    fun u x lba hi lo cnt f p n hu hx hlba hhi hlo hcnt hf hp hn => ?_⟩
  · simp only [assemble, AsmLine.wellFormed, RegRef.wellFormed, h4, ho, hv]
    exact ⟨rfl, rfl, rfl, rfl⟩
  · rw [← encode_setlba28_ofNat hu, ← encode_setxlba_ofNat hu hx]
    simp only [assemble, AsmLine.wellFormed, hu, hx, hlba, hhi, hlo, hcnt, hf, hp, hn]
    exact ⟨rfl, rfl, rfl, rfl, rfl⟩

end Sys2Proof.Machine
end

section
/-! SUPPORT. The bytes of the LBA images in numbers, what each encoder operation answers, and the statements about the
LBA encoder (spec/41_lba_encoder.md R130 to R138). -/

namespace Sys2Proof.Machine

/-! ### Bytes and byte pairs (R36) -/

/-- A value of `n` bits is the literal of its number. -/
theorem eq_ofNat_of_toNat_eq {n k : Nat} {x : BitVec n} (h : x.toNat = k) : x = BitVec.ofNat n k := by
  rw [← h, BitVec.ofNat_toNat, BitVec.setWidth_eq]

theorem toNat_wordByte (w : Word) (k : Nat) : (wordByte w k).toNat = w.toNat / 2 ^ (8 * k) % 2 ^ 8 := by
  rw [wordByte, BitVec.extractLsb'_toNat, Nat.shiftRight_eq_div_pow]

theorem toNat_lowByte (h : Half) : (lowByte h).toNat = h.toNat % 2 ^ 8 := by
  rw [lowByte, BitVec.extractLsb'_toNat, Nat.shiftRight_zero]

theorem toNat_hobByte (h : Half) : (hobByte h).toNat = h.toNat / 2 ^ 8 := by
  have hh := h.isLt
  rw [hobByte, BitVec.extractLsb'_toNat, Nat.shiftRight_eq_div_pow]
  omega

theorem toNat_bytePair (hob low : Byte) : (bytePair hob low).toNat = low.toNat + hob.toNat * 2 ^ 8 := by
  rw [bytePair, toNat_append_eq_add, Nat.add_comm]

@[simp] theorem lowByte_bytePair (hob low : Byte) : lowByte (bytePair hob low) = low := by
  have hlow := low.isLt
  apply BitVec.eq_of_toNat_eq
  rw [toNat_lowByte, toNat_bytePair]
  omega

@[simp] theorem hobByte_bytePair (hob low : Byte) : hobByte (bytePair hob low) = hob := by
  have hlow := low.isLt
  apply BitVec.eq_of_toNat_eq
  rw [toNat_hobByte, toNat_bytePair]
  omega

/-! ### The operands (R103) -/

theorem toNat_lbaHiOperand (s : State) : (lbaHiOperand s).toNat = s.arg1.toNat % 2 ^ 16 := by
  rw [lbaHiOperand, BitVec.extractLsb'_toNat, Nat.shiftRight_zero]

theorem toNat_countOperand (s : State) : (countOperand s).toNat = s.arg2.toNat % 2 ^ 16 := by
  rw [countOperand, BitVec.extractLsb'_toNat, Nat.shiftRight_zero]

/-! ### The device byte (R132, R133) -/

theorem toNat_deviceByte (u : BitVec 4) : (deviceByte u).toNat = (0x40 ||| u.toNat * 2 ^ 4) % 2 ^ 8 := by
  revert u; decide

/-- The unit is shifted to bit 4, so no unit reaches below it and none clears bit 6. -/
theorem deviceByte_lbaBit (u : BitVec 4) : (deviceByte u).getLsbD 6 = true := by
  revert u; decide

/-- For a legal unit the LBA nibble, the unit and the LBA bit stand side by side (R132). -/
theorem toNat_nibble_or_deviceByte (n : BitVec 4) {u : BitVec 4} (hu : u.toNat ≤ 1) :
    (n.zeroExtend 8 ||| deviceByte u).toNat = n.toNat + 0x40 + u.toNat * 2 ^ 4 := by
  revert n u; decide

/-! ### NOP, CMDRESET and XZERO (R130, R131, R135) -/

theorem exec_nop (s : State) : exec .nop s = .next (finish .ok s) := rfl

theorem exec_cmdreset (s : State) :
    exec .cmdreset s = .next (finish .ok { s with
      tf := TaskFile.zero, xl := ExtLba.zero, cmdFlags := 0, cmdPosition := 0, cmdByteCount := 0, cmdActual := 0 }) :=
  rfl

theorem exec_xzero (s : State) : exec .xzero s = .next (finish .ok { s with xl := ExtLba.zero }) := rfl

/-- Settles O8: of the words with OPC 0 only the word 0 is legal. -/
theorem nopChangesOnlyOpstat : Obligations.NopChangesOnlyOpstat := by
  refine ⟨decodeOfEncode .nop, exec_nop, fun w hopc hne => decode_of_illegal ?_⟩
  by_contra hlegal
  have hzero : w.toNat = 0 :=
    (eq_iff_legal_of_noOperand (by decide)).mpr ⟨hopc, Bool.eq_false_iff.mpr hlegal⟩
  exact hne (BitVec.eq_of_toNat_eq hzero)

/-- Settles O9. -/
theorem cmdresetClearsCommand : Obligations.CmdresetClearsCommand :=
  ⟨decodeOfEncode .cmdreset, exec_cmdreset⟩

/-- A step on the word of CMDRESET is CMDRESET with the word stored in OPR (R100, R131). -/
theorem step_cmdreset {s : State} {rest : List Event} (h : s.events = .write 32 0x000 0x00000001#32 :: rest) :
    step s = exec .cmdreset { s with events := rest, opr := 0x00000001#32 } :=
  stepRunsDecodedOperation s _ rest _ h (decodeOfEncode .cmdreset)

/-- Settles O10: the second CMDRESET finds its word in OPR, its code in OPSTAT and 0 in all it clears. -/
theorem cmdresetIdempotent : Obligations.CmdresetIdempotent := by
  intro s rest h
  refine ⟨_, (step_cmdreset h).trans (exec_cmdreset _), ?_⟩
  rw [step_cmdreset rfl, exec_cmdreset]
  rfl

/-! ### SETLBA28 (R132) -/

/-- The operands SETLBA28 accepts, in numbers. -/
theorem lba28OutOfRange_eq_false_iff (lba : Word) (u : BitVec 4) :
    lba28OutOfRange lba u = false ↔ lba.toNat < 2 ^ 28 ∧ u.toNat ≤ 1 := by
  have hlba := lba.isLt
  have htop : lba.extractLsb' 28 4 = 0 ↔ lba.toNat < 2 ^ 28 := by
    rw [← BitVec.toNat_inj, BitVec.extractLsb'_toNat, Nat.shiftRight_eq_div_pow]
    change _ = 0 ↔ _
    omega
  simp only [lba28OutOfRange, Bool.or_eq_false_iff, bne_eq_false_iff_eq, decide_eq_false_iff_not, not_lt, htop]

theorem exec_setlba28 (u : BitVec 4) (s : State) :
    exec (.setlba28 u) s = .next
      (if s.arg0.toNat < 2 ^ 28 ∧ u.toNat ≤ 1 then finish .ok { s with tf := lba28Pack s.arg0 u s.tf }
       else finish .errRange s) := by
  have hcheck := lba28OutOfRange_eq_false_iff s.arg0 u
  change execSetlba28 u s = _
  rw [execSetlba28, lbaOperand]
  split_ifs with hout hrange hrange
  · rw [hcheck.mpr hrange] at hout
    cases hout
  · rfl
  · rfl
  · exact absurd (hcheck.mp (Bool.eq_false_iff.mpr hout)) hrange

theorem toNat_lba28Pack_secNum (lba : Word) (u : BitVec 4) (tf : TaskFile) :
    (lba28Pack lba u tf).secNum.toNat = lba.toNat % 2 ^ 8 := by
  rw [lba28Pack, toNat_wordByte, Nat.mul_zero, Nat.pow_zero, Nat.div_one]

theorem toNat_lba28Pack_cylLo (lba : Word) (u : BitVec 4) (tf : TaskFile) :
    (lba28Pack lba u tf).cylLo.toNat = lba.toNat / 2 ^ 8 % 2 ^ 8 := toNat_wordByte lba 1

theorem toNat_lba28Pack_cylHi (lba : Word) (u : BitVec 4) (tf : TaskFile) :
    (lba28Pack lba u tf).cylHi.toNat = lba.toNat / 2 ^ 16 % 2 ^ 8 := toNat_wordByte lba 2

/-- The device byte of an accepted SETLBA28. -/
theorem toNat_lba28Pack_devHead {lba : Word} {u : BitVec 4} (hlba : lba.toNat < 2 ^ 28) (hu : u.toNat ≤ 1)
    (tf : TaskFile) : (lba28Pack lba u tf).devHead.toNat = lba.toNat / 2 ^ 24 + 0x40 + u.toNat * 2 ^ 4 := by
  have hnibble : (lba.extractLsb' 24 4).toNat = lba.toNat / 2 ^ 24 := by
    rw [BitVec.extractLsb'_toNat, Nat.shiftRight_eq_div_pow]
    omega
  rw [← hnibble]
  exact toNat_nibble_or_deviceByte _ hu

/-- The LBA bit is 1 whatever SETLBA28 packs. -/
theorem lba28Pack_lbaBit (lba : Word) (u : BitVec 4) (tf : TaskFile) :
    (lba28Pack lba u tf).devHead.getLsbD 6 = true := by
  rw [lba28Pack, BitVec.getLsbD_or, deviceByte_lbaBit, Bool.or_true]

/-- The task-file image of an accepted SETLBA28, in numbers. -/
theorem lba28Pack_eq {lba : Word} {u : BitVec 4} (hlba : lba.toNat < 2 ^ 28) (hu : u.toNat ≤ 1) (tf : TaskFile) :
    lba28Pack lba u tf = { tf with
      secNum := BitVec.ofNat 8 (lba.toNat % 2 ^ 8)
      cylLo := BitVec.ofNat 8 (lba.toNat / 2 ^ 8 % 2 ^ 8)
      cylHi := BitVec.ofNat 8 (lba.toNat / 2 ^ 16 % 2 ^ 8)
      devHead := BitVec.ofNat 8 (lba.toNat / 2 ^ 24 + 0x40 + u.toNat * 2 ^ 4) } := by
  rw [← eq_ofNat_of_toNat_eq (toNat_lba28Pack_secNum lba u tf), ← eq_ofNat_of_toNat_eq (toNat_lba28Pack_cylLo lba u tf),
    ← eq_ofNat_of_toNat_eq (toNat_lba28Pack_cylHi lba u tf), ← eq_ofNat_of_toNat_eq (toNat_lba28Pack_devHead hlba hu tf)]
  rfl

/-- Settles O11: the range check in numbers, and behind it the image in numbers. -/
theorem setlba28PacksOrRejects : Obligations.Setlba28PacksOrRejects := by
  intro u s
  constructor
  · rw [← eq_ofNat_of_toNat_eq (toNat_encode_setlba28 u)]
    exact decodeOfEncode _
  · rw [exec_setlba28]
    split_ifs with hrange
    · obtain ⟨hlba, hu⟩ := hrange
      rw [lba28Pack_eq hlba hu]
      rfl
    · rfl

/-- Settles O12: the four registers hold the four digits of the LBA to the base 2^8, the last beside the unit and
the LBA bit. -/
theorem lba28ReadBack : Obligations.Lba28ReadBack := by
  intro u s hlba hu
  refine ⟨finish .ok { s with tf := lba28Pack s.arg0 u s.tf }, ?_, rfl, ?_, ?_, ?_⟩
  · rw [exec_setlba28, if_pos ⟨hlba, hu⟩]
  · simp only [finish_tf, toNat_lba28Pack_secNum, toNat_lba28Pack_cylLo, toNat_lba28Pack_cylHi,
      toNat_lba28Pack_devHead hlba hu]
    omega
  · simp only [finish_tf, toNat_lba28Pack_devHead hlba hu]
    omega
  · rw [finish_tf, lba28Pack_lbaBit]

/-! ### SETXLBA (R133) -/

theorem exec_setxlba (u : BitVec 4) (x : Byte) (s : State) :
    exec (.setxlba u x) s =
      .next (finish .ok { s with xl := xlbaPack s.arg0 (lbaHiOperand s) (countOperand s) u x s.xl }) := rfl

/-- The extended image SETXLBA leaves, in numbers. -/
theorem xlbaPack_eq (lo : Word) (hi count : Half) (u : BitVec 4) (x : Byte) (xl : ExtLba) :
    xlbaPack lo hi count u x xl = { xl with
      lbaLow16 := BitVec.ofNat 16 (lo.toNat % 2 ^ 8 + lo.toNat / 2 ^ 24 * 2 ^ 8)
      lbaMid16 := BitVec.ofNat 16 (lo.toNat / 2 ^ 8 % 2 ^ 8 + hi.toNat % 2 ^ 8 * 2 ^ 8)
      lbaHigh16 := BitVec.ofNat 16 (lo.toNat / 2 ^ 16 % 2 ^ 8 + hi.toNat / 2 ^ 8 * 2 ^ 8)
      secCount16 := count
      command := x
      device := deviceByte u } := by
  have hlo := lo.isLt
  have hpair (hob low : Byte) : bytePair hob low = BitVec.ofNat 16 (low.toNat + hob.toNat * 2 ^ 8) :=
    eq_ofNat_of_toNat_eq (toNat_bytePair hob low)
  have htop : (wordByte lo 3).toNat = lo.toNat / 2 ^ 24 := by
    rw [toNat_wordByte]
    omega
  simp only [xlbaPack, hpair, htop, toNat_wordByte, toNat_lowByte, toNat_hobByte, Nat.reduceMul, Nat.pow_zero,
    Nat.div_one]

/-- Settles O13: the operands in numbers, put into the image in numbers. -/
theorem setxlbaInterleavesBytes : Obligations.SetxlbaInterleavesBytes := by
  intro u x s
  refine ⟨?_, deviceByte u, toNat_deviceByte u, deviceByte_lbaBit u, ?_⟩
  · rw [← eq_ofNat_of_toNat_eq (toNat_encode_setxlba u x)]
    exact decodeOfEncode _
  · have hlow : (lbaHiOperand s).toNat % 2 ^ 8 = s.arg1.toNat % 2 ^ 8 := by
      rw [toNat_lbaHiOperand]
      omega
    have hhob : (lbaHiOperand s).toNat / 2 ^ 8 = s.arg1.toNat / 2 ^ 8 % 2 ^ 8 := by
      rw [toNat_lbaHiOperand]
      omega
    have hcount : countOperand s = BitVec.ofNat 16 (s.arg2.toNat % 2 ^ 16) :=
      eq_ofNat_of_toNat_eq (toNat_countOperand s)
    rw [exec_setxlba, xlbaPack_eq, hlow, hhob, hcount]
    rfl

/-! ### GETXLBA (R134) -/

theorem exec_getxlba (s : State) :
    exec .getxlba s = .next (finish .ok { s with res0 := xlbaLow s.xl, res1 := xlbaHigh s.xl }) := rfl

/-- The low 32 LBA bits by the bytes of the three pairs. -/
theorem toNat_xlbaLow (xl : ExtLba) :
    (xlbaLow xl).toNat = (lowByte xl.lbaLow16).toNat + (lowByte xl.lbaMid16).toNat * 2 ^ 8
      + (lowByte xl.lbaHigh16).toNat * 2 ^ 16 + (hobByte xl.lbaLow16).toNat * 2 ^ 24 := by
  simp only [xlbaLow, toNat_append_eq_add]
  omega

/-- The high 16 LBA bits by the HOB bytes of two pairs. -/
theorem toNat_xlbaHigh (xl : ExtLba) :
    (xlbaHigh xl).toNat = (hobByte xl.lbaMid16).toNat + (hobByte xl.lbaHigh16).toNat * 2 ^ 8 := by
  simp only [xlbaHigh, toNat_append_eq_add, BitVec.toNat_ofNat]
  omega

/-- Settles O14. -/
theorem getxlbaReconstructsLba : Obligations.GetxlbaReconstructsLba := by
  refine ⟨decodeOfEncode .getxlba, fun s => ⟨xlbaLow s.xl, xlbaHigh s.xl, ?_, ?_, xlbaHigh_lt s.xl, exec_getxlba s⟩⟩
  · simp only [toNat_xlbaLow, toNat_lowByte, toNat_hobByte]
  · simp only [toNat_xlbaHigh, toNat_hobByte]

/-! ### GETXLBA on what SETXLBA and XZERO leave (R135, R136) -/

@[simp] theorem xlbaLow_xlbaPack (lo : Word) (hi count : Half) (u : BitVec 4) (x : Byte) (xl : ExtLba) :
    xlbaLow (xlbaPack lo hi count u x xl) = lo := by
  have hlo := lo.isLt
  apply BitVec.eq_of_toNat_eq
  simp only [toNat_xlbaLow, xlbaPack, lowByte_bytePair, hobByte_bytePair, toNat_wordByte]
  omega

@[simp] theorem toNat_xlbaHigh_xlbaPack (lo : Word) (hi count : Half) (u : BitVec 4) (x : Byte) (xl : ExtLba) :
    (xlbaHigh (xlbaPack lo hi count u x xl)).toNat = hi.toNat := by
  simp only [toNat_xlbaHigh, xlbaPack, hobByte_bytePair, toNat_lowByte, toNat_hobByte]
  omega

/-- Settles O15: GETXLBA reads the three pairs alone, and they hold what SETXLBA packed. -/
theorem xlbaRoundTrip : Obligations.XlbaRoundTrip := by
  intro u x s
  refine ⟨_, exec_setxlba u x s, fun t' hxl => ⟨_, exec_getxlba t', ?_, ?_⟩⟩
  · simp only [finish_res0, hxl, finish_xl, xlbaLow_xlbaPack]
  · simp only [finish_res1, hxl, finish_xl, toNat_xlbaHigh_xlbaPack, toNat_lbaHiOperand]

@[simp] theorem xlbaLow_zero : xlbaLow ExtLba.zero = 0 := by decide

@[simp] theorem xlbaHigh_zero : xlbaHigh ExtLba.zero = 0 := by decide

/-- Settles O16: GETXLBA on the zero image gives 0. -/
theorem xzeroClearsImage : Obligations.XzeroClearsImage := by
  refine ⟨decodeOfEncode .xzero, fun s => ⟨_, exec_xzero s, rfl, _, exec_getxlba _, ?_, ?_⟩⟩
  · simp only [finish_res0, finish_xl, xlbaLow_zero]
  · simp only [finish_res1, finish_xl, xlbaHigh_zero]

end Sys2Proof.Machine
end

section
/-! SUPPORT. The builder and the STARTDMA that runs it: what BUILD leaves alone, a segment emitted in slots that
suffice, and how STARTDMA ends for each kind of provider (spec/42_prd_builder.md R160 to R176). -/

namespace Sys2Proof.Machine

/-! ### The fields a start, a stop and a build leave alone (R176, R202, R204) -/

@[simp] theorem startEngine_dma (s : State) : (startEngine s).dma = s.dma := by rw [startEngine_frame]
@[simp] theorem startEngine_lastStop (s : State) : (startEngine s).lastStop = s.lastStop := by rw [startEngine_frame]
@[simp] theorem startEngine_prdCount (s : State) : (startEngine s).prdCount = s.prdCount := by rw [startEngine_frame]
@[simp] theorem startEngine_table (s : State) : (startEngine s).table = s.table := by rw [startEngine_frame]
@[simp] theorem startEngine_segAnswers (s : State) : (startEngine s).segAnswers = s.segAnswers := by rw [startEngine_frame]
@[simp] theorem startEngine_draws (s : State) : (startEngine s).draws = s.draws := by rw [startEngine_frame]
@[simp] theorem startEngine_segTrace (s : State) : (startEngine s).segTrace = s.segTrace := by rw [startEngine_frame]

/-- The accesses of a start: the base, then the start command of the direction (R204, R206). -/
theorem startEngine_bmTrace (s : State) :
    (startEngine s).bmTrace
      = s.bmTrace ++ [.write .prdtp s.prdBase, .write .cmd (bmCmdStart (readDirection s))] := by
  rw [startEngine_frame]

/-- Started, the engine has its START bit 1 in either direction (R206). -/
theorem startEngine_startBit (s : State) : (startEngine s).engine.cmd.getLsbD 0 = true := by
  rw [startEngine_frame]
  show (if readDirection s then (0x09 : Byte) else 0x01).getLsbD 0 = true
  cases readDirection s <;> decide

@[simp] theorem stopCore_prdCount (s : State) : (stopCore s).prdCount = s.prdCount := by rw [stopCore_frame]
@[simp] theorem stopCore_segAnswers (s : State) : (stopCore s).segAnswers = s.segAnswers := by rw [stopCore_frame]
@[simp] theorem stopCore_draws (s : State) : (stopCore s).draws = s.draws := by rw [stopCore_frame]
@[simp] theorem stopCore_segTrace (s : State) : (stopCore s).segTrace = s.segTrace := by rw [stopCore_frame]
@[simp] theorem stopCore_bmTrace (s : State) : (stopCore s).bmTrace = s.bmTrace ++ stopWritesFrom s.dma := by
  rw [stopCore_frame]

/-- A stop after another halts and clears the engine, whether or not the first was effective (R202). -/
theorem engineStopped_twice {d' : DmaState} (h : d' ≠ .inactive) (d : DmaState) (e : Engine) :
    engineStopped d' (engineStopped d e) = { e with cmd := 0, active := false, err := false, int := false } := by
  rw [engineStopped, if_neg h, engineStopped]
  split <;> rfl

@[simp] theorem emitPieces_table (last : Bool) (i : Nat) (gs : List Segment) (s : State) :
    (emitPieces last i gs s).table = writePieces last i gs s.table := rfl

theorem emitPieces_prdCount {gs : List Segment} (h : gs ≠ []) (last : Bool) (i : Nat) (s : State) :
    (emitPieces last i gs s).prdCount = BitVec.ofNat 8 (i + gs.length) := if_neg h

/-- The table a start builds on holds the stop entry everywhere (R161). -/
theorem entryAt_armed (s : State) {i : Nat} (h : i < prdMax) : entryAt (armed s).table i = stopEntry := by
  rw [armed_table, entryAt_stopEntries, if_pos h]

/-! ### BUILD -/

/-- Whatever code BUILD returns, it keeps its frame (R164, R176). -/
theorem BuildFrame_of_build {s t : State} (h : build s = .built t ∨ ∃ c, build s = .failed c t) :
    BuildFrame s t := by
  rcases build_effect s with ⟨_, hb⟩ | ⟨_, ⟨b, hb, _, heff⟩ | ⟨b, hb, _, heff, _⟩ | hb⟩
  all_goals
    rw [hb] at h
    rcases h with h | ⟨c, h⟩ <;> cases h
  · rfl
  · exact heff.frame
  · exact heff.frame

/-- Settles O32. -/
theorem buildTouchesNoEngineRegister : Obligations.BuildTouchesNoEngineRegister :=
  fun _ _ h => BuildFrame_of_build h

theorem build_noBuffer {s : State} (h : bufferValid s = false) : build s = .failed .errNullBuffer s := by
  rw [build, h]
  rfl

theorem build_of_buffer {s : State} (h : bufferValid s = true) :
    build s = buildLoop (prdMax + 1) prdMax s.cmdPosition.toNat s.cmdByteCount.toNat s := by
  rw [build, if_pos h]

/-- Settles O24: with a slot for each block touched, the emission is that of the segment's pieces. -/
theorem segmentSplitsAtBoundaries : Obligations.SegmentSplitsAtBoundaries := by
  intro last slots p c s hslots hc _ hfit
  have hlen : (segmentPieces ⟨p, c⟩).length = (p + c - 1) / 2 ^ 16 - p / 2 ^ 16 + 1 := segmentPieces_length _
  have hblocks : blocksTouched ⟨p, c⟩ ≤ slots := hfit
  refine ⟨emitPieces last (64 - slots) (segmentPieces ⟨p, c⟩) s, segmentPieces ⟨p, c⟩, ?_, hlen, ?_,
    segmentPieces_total p c hc, fun k g hk => ?_, fun i hi => ?_⟩
  · rw [emitSegment_eq last slots p c s hslots hc, if_pos hblocks, segmentPieces_length]
  · rw [emitPieces_prdCount (segmentPieces_ne_nil _), BitVec.toNat_ofNat, Nat.mod_eq_of_lt (by omega)]
  · obtain ⟨hpos, hblock, _, hsame⟩ := segmentPieces_bounds p c hc g (List.mem_of_getElem? hk)
    exact ⟨segmentPieces_consecutive p c hc k g hk, hpos, hblock, hsame,
      entryAt_writePieces last _ (64 - slots) k s.table g hk⟩
  · rw [emitPieces_table]
    rcases hi with hi | hi
    · exact entryAt_writePieces_below last _ _ i _ hi
    · exact entryAt_writePieces_above last _ _ i _ hi

/-- Settles O25: the two runs of the loop, where the slots suffice and where they do not. -/
theorem buildFailsExactlyWhenExhausted : Obligations.BuildFailsExactlyWhenExhausted := by
  intro s gs rest hv hpl ha htot
  rw [build_of_buffer hv]
  split
  next hlen =>
    obtain ⟨t, hb, hdma, _, _, hcount, _⟩ :=
      buildLoop_of_fitting gs (prdMax + 1) prdMax s.cmdPosition.toNat s.cmdByteCount.toNat s rest
        (Nat.le_refl _) (Nat.lt_succ_self _) hpl ha hlen htot
    refine ⟨t, hb, hdma, fun hgs => ?_⟩
    rw [hcount, if_neg hgs, Nat.sub_self, Nat.zero_add, BitVec.toNat_ofNat]
    omega
  next hlen =>
    obtain ⟨t, hb, hdma, _, htable, hcount⟩ :=
      buildLoop_of_exhausting gs (prdMax + 1) prdMax s.cmdPosition.toNat s.cmdByteCount.toNat s rest
        (Nat.le_refl _) (Nat.lt_succ_self _) hpl ha (Nat.not_le.mp hlen) (by omega)
    refine ⟨t, hb, hdma, by rw [hcount]; rfl, fun i g hi hg => ?_⟩
    have hentry := entryAt_writePieces false ((chainPieces gs).take 64) 0 i s.table g
      (by rw [List.getElem?_take_of_lt hi, hg])
    rw [Nat.zero_add, Bool.false_and] at hentry
    rw [htable]
    exact hentry

/-! ### STARTDMA on segments that fit the table (R163 to R169) -/

/-- What STARTDMA leaves on the segments a provider lists, with a slot for each piece: Status, the chain of the
pieces in front of stop entries, and the engine started after the stop of any prior program. -/
theorem exec_startdma_leaves_chain {s : State} {gs : List Segment} {rest : List SegAnswer}
    (hv : bufferValid s = true) (hpl : ∀ g ∈ gs, segmentPlaced g = true)
    (ha : s.segAnswers = gs.map some ++ rest) (hlen : (chainPieces gs).length ≤ 64)
    (htot : totalBytes gs = s.cmdByteCount.toNat
      ∨ (totalBytes gs < s.cmdByteCount.toNat ∧ ∃ r, rest = none :: r)) :
    ∃ t, exec .startdma s = .next t ∧ t.opstat = 0x00 ∧ t.dma = .status ∧
      t.lastStop = lastStopAfter s.dma s.lastStop ∧ t.prdCount.toNat = (chainPieces gs).length ∧
      (∀ (i : Nat) (g : Segment), (chainPieces gs)[i]? = some g → entryAt t.table i
        = pieceEntry g (decide (totalBytes gs = s.cmdByteCount.toNat) && decide (i + 1 = (chainPieces gs).length))) ∧
      (∀ i, (chainPieces gs).length ≤ i → i < 64 → entryAt t.table i = stopEntry) ∧
      t.bmTrace = s.bmTrace ++ stopWritesFrom s.dma
        ++ [.write .prdtp s.prdBase, .write .cmd (if s.cmdFlags.getLsbD 0 then 0x09 else 0x01)] ∧
      (totalBytes gs = s.cmdByteCount.toNat → t.segAnswers = rest) := by
  obtain ⟨b, hexec, hdma, hframe, htable, hcount, hanswers⟩ := exec_startdma_of_fitting hv hpl ha hlen htot
  refine ⟨_, hexec, rfl, hdma, ?_, ?_, fun i g hg => ?_, fun i hge hlt => ?_, ?_, ?_⟩
  · rw [finish_lastStop, startEngine_lastStop, hframe]
    exact armed_lastStop s
  · rw [finish_prdCount, startEngine_prdCount, hcount]
  · have hentry := entryAt_writePieces (decide (totalBytes gs = s.cmdByteCount.toNat)) (chainPieces gs) 0 i
      (stopEntries prdMax s.table) g hg
    rw [Nat.zero_add] at hentry
    rw [finish_table, startEngine_table, htable, hentry]
  · rw [finish_table, startEngine_table, htable, entryAt_behind_chain _ _ _ hge hlt]
  · rw [finish_bmTrace, startEngine_bmTrace, hframe]
    simp [readDirection, bmCmdStart]
  · rw [finish_segAnswers, startEngine_segAnswers]
    exact hanswers

/-- Settles O26: the segments cover the transfer, so the chain is marked. -/
theorem startdmaBuildsChain : Obligations.StartdmaBuildsChain := by
  intro s gs rest hv hpl htot ha hlen
  obtain ⟨t, hexec, hcode, hdma, hlast, hcount, hchain, hstop, htrace, hanswers⟩ :=
    exec_startdma_leaves_chain hv hpl ha hlen (.inl htot)
  simp only [htot, decide_true, Bool.true_and] at hchain
  exact ⟨t, hexec, hcode, hdma, hlast, hcount, hchain, hstop, htrace, hanswers htot⟩

/-! ### The walk of an unmarked chain (R169, R215, R268) -/

theorem chainEntries_unmarked (gs : List Segment) :
    chainEntries false gs = gs.map (fun g => pieceEntry g false) := by
  induction gs with
  | nil => rfl
  | cons g gs ih => rw [chainEntries, Bool.false_and, ih, List.map_cons]

theorem throughEot_cons_unmarked {e : PrdEntry} (h : entryEot e = false) (es : List PrdEntry) :
    throughEot (e :: es) = e :: throughEot es := by
  rw [throughEot, h]
  rfl

/-- The engine walks over an unmarked chain into what stands behind it (R215). -/
theorem throughEot_unmarked (gs : List Segment) (behind : List PrdEntry) :
    throughEot (gs.map (fun g => pieceEntry g false) ++ behind)
      = gs.map (fun g => pieceEntry g false) ++ throughEot behind := by
  induction gs with
  | nil => rfl
  | cons g gs ih =>
    rw [List.map_cons, List.cons_append, throughEot_cons_unmarked (entryEot_pieceEntry g false), ih,
      List.cons_append]

/-- Behind the chain the first stop entry ends the walk, if there is one. -/
theorem throughEot_stopEntries {n : Nat} (h : 0 < n) :
    throughEot (List.replicate n stopEntry) = [stopEntry] := by
  obtain ⟨n, rfl⟩ := Nat.exists_eq_succ_of_ne_zero (Nat.ne_of_gt h)
  rfl

/-- An unmarked chain with stop entries behind it is run past exactly if there is no stop entry (R268). -/
theorem unmarked_all_iff (gs : List Segment) (n : Nat) :
    (gs.map (fun g => pieceEntry g false) ++ List.replicate n stopEntry).all (fun e => !entryEot e)
      = decide (n = 0) := by
  have hchain : (gs.map (fun g => pieceEntry g false)).all (fun e => !entryEot e) = true := by simp
  rw [List.all_append, hchain, Bool.true_and]
  cases n with
  | zero => rfl
  | succ n => simp [List.replicate_succ]

/-- The engine after a provider that ended early: it walks the pieces and the first stop entry, or past entry 63
if there is none (R169, R268). -/
theorem engineWalk_of_unmarked {t : State} {gs : List Segment} (hrun : engineRunning t = true)
    (htable : engineTable t = chainEntries false gs ++ List.replicate (prdMax - gs.length) stopEntry) :
    if gs.length < 64 then
      engineWalk t = gs.map (fun g => pieceEntry g false) ++ [stopEntry] ∧ walkRunsPast t = false
    else walkRunsPast t = true := by
  rw [chainEntries_unmarked] at htable
  have hpast : walkRunsPast t = decide (64 - gs.length = 0) := by
    rw [walkRunsPast, hrun, Bool.true_and, htable, unmarked_all_iff]
  split
  next hlt =>
    have hroom : 0 < 64 - gs.length := Nat.sub_pos_of_lt hlt
    refine ⟨?_, by rw [hpast, decide_eq_false (Nat.ne_of_gt hroom)]⟩
    rw [engineWalk_of_running t hrun, htable, throughEot_unmarked, throughEot_stopEntries hroom]
  next hfull => rw [hpast, decide_eq_true (Nat.sub_eq_zero_of_le (Nat.not_lt.mp hfull))]

/-- Settles O28: the segments fall short of the transfer, so the chain is not marked. -/
theorem earlyEndLeavesNoMarker : Obligations.EarlyEndLeavesNoMarker := by
  intro s gs rest hv hpl htot ha hlen
  have hend : totalBytes gs = s.cmdByteCount.toNat
      ∨ (totalBytes gs < s.cmdByteCount.toNat ∧ ∃ r, none :: rest = none :: r) := .inr ⟨htot, rest, rfl⟩
  have hshort : decide (totalBytes gs = s.cmdByteCount.toNat) = false := decide_eq_false (Nat.ne_of_lt htot)
  obtain ⟨t, hexec, hcode, hdma, _, hcount, hchain, hstop, _, _⟩ := exec_startdma_leaves_chain hv hpl ha hlen hend
  obtain ⟨b, hexec', _, hframe, htable, _, _⟩ := exec_startdma_of_fitting hv hpl ha hlen hend
  obtain rfl : t = finish .ok (startEngine b) := by
    rw [hexec'] at hexec
    cases hexec
    rfl
  rw [hshort] at htable
  simp only [hshort, Bool.false_and] at hchain
  exact ⟨_, hexec, hcode, hdma, hcount, hchain, hstop, fun hplaced hready =>
    engineWalk_of_unmarked (engineRunning_of_build hframe hready)
      (engineTable_of_build hframe htable hlen hplaced)⟩

/-! ### STARTDMA without a transfer or without a buffer (R164, R170, R207) -/

/-- Settles O29. -/
theorem zeroLengthStartsOnStopTable : Obligations.ZeroLengthStartsOnStopTable := by
  intro s hv h0
  refine ⟨_, execStartdma_zeroLength s hv h0, rfl, by simp, by simp, by simp, by simp, by simp, fun i hi => ?_,
    startEngine_startBit _⟩
  rw [finish_table, startEngine_table]
  dsimp only
  exact entryAt_armed s hi

/-- Settles O30: the second stop starts from Starting, so it is effective. -/
theorem nullBufferRejected : Obligations.NullBufferRejected := by
  intro s hv
  refine ⟨build_noBuffer hv, _, execStartdma_noBuffer s hv, rfl, by simp, by simp [lastStopAfter], by simp,
    fun i hi => ?_, by simp, by simp, by simp, by simp [stopWritesFrom], ?_⟩
  · rw [finish_table, stopCore_table]
    exact entryAt_armed s hi
  · rw [finish_engine, stopCore_engine, armed_dma, armed_engine]
    exact engineStopped_twice (by decide) s.dma s.engine

/-! ### The provider (R162, R175) -/

/-- The stop before the build leaves the provider's answers as they are. -/
theorem answerAt_armed (s : State) (k : Nat) (q : SegQuery) : answerAt (armed s) k q = answerAt s k q := by
  rw [answerAt, answerAt, armed_segAnswers, armed_draws]

/-- A STARTDMA that goes through has made at most 65 queries, each behind the bytes answered before it (R175). -/
theorem exec_startdma_queries {s t : State} (h : exec .startdma s = .next t) :
    ∃ (qs : List SegQuery) (answers : List Segment), t.segTrace = s.segTrace ++ qs ∧ qs.length ≤ prdMax + 1 ∧
      QueriesFrom s.cmdPosition.toNat s.cmdByteCount.toNat (armed s) qs answers := by
  change execStartdma s = _ at h
  rcases execStartdma_cases s with ⟨_, he⟩ | ⟨_, ⟨b, he, _, heff⟩ | ⟨b, he, _, heff, _⟩ | he⟩
  all_goals
    rw [he] at h
    cases h
  · exact ⟨[], [], by simp, Nat.zero_le _, QueriesFrom_none _ _ _⟩
  all_goals
    have hqueries := heff.queries
    rw [armed_segTrace] at hqueries
    simpa using hqueries

/-- Settles O31. -/
theorem segmentQueriesBounded : Obligations.SegmentQueriesBounded := by
  intro s t h
  obtain ⟨qs, answers, htrace, hbound, hle, hge, hq⟩ := exec_startdma_queries h
  simp only [answerAt_armed] at hq
  exact ⟨qs, answers, htrace, hbound, hle, hge, hq⟩

/-- One round of the loop on a listed segment that is placed, short of the remaining count and has its slots:
the answer is consumed and the loop goes on behind it (R163). -/
theorem buildLoop_listed {fuel slots pos rem : Nat} {s : State} {g : Segment} {as : List SegAnswer}
    (hs : slots ≤ prdMax) (hg : segmentPlaced g = true) (hrem : g.len ≤ rem) (hfit : blocksTouched g ≤ slots)
    (ha : s.segAnswers = some g :: as) :
    ∃ s', s'.segAnswers = as ∧ buildLoop (fuel + 1) slots pos rem s
      = buildLoop fuel (slots - blocksTouched g) (pos + g.len) (rem - g.len) s' := by
  obtain ⟨hpos, _⟩ := (segmentPlaced_iff g).mp hg
  have hne : rem ≠ 0 := by omega
  have hq : segAnswer pos rem s = some g := by rw [segAnswer, ha]
  refine ⟨emitPieces (rem - g.len == 0) (prdMax - slots) (segmentPieces g) (afterSegQuery pos rem s), ?_, ?_⟩
  · show s.segAnswers.tail = as
    rw [ha, List.tail_cons]
  · rw [buildLoop_succ _ _ _ _ _ hs, if_neg hne, hq]
    simp only [duty_of_placed g rem hg hrem, if_true, if_pos hfit]

/-- The loop that comes to an answer breaking a duty, behind placed segments that fit, has no step (R162). -/
theorem buildLoop_of_brokenDuty (gs : List Segment) {g : Segment} {rest : List SegAnswer} :
    ∀ (fuel slots pos rem : Nat) (s : State), slots ≤ prdMax → slots < fuel →
      (∀ g' ∈ gs, segmentPlaced g' = true) → totalBytes gs < rem → (chainPieces gs).length ≤ slots →
      s.segAnswers = gs.map some ++ some g :: rest → g.meetsDuty (rem - totalBytes gs) = false →
      buildLoop fuel slots pos rem s = .brokenDuty := by
  induction gs with
  | nil =>
    intro fuel slots pos rem s hs hf _ htot _ ha hduty
    obtain ⟨fuel, rfl⟩ := Nat.exists_eq_succ_of_ne_zero (Nat.ne_zero_of_lt hf)
    have hq : segAnswer pos rem s = some g := by rw [segAnswer, ha]; rfl
    rw [totalBytes_nil, Nat.sub_zero] at hduty
    rw [Nat.succ_eq_add_one, buildLoop_succ _ _ _ _ _ hs, if_neg (Nat.ne_zero_of_lt htot), hq]
    simp only [hduty, Bool.false_eq_true, if_false]
  | cons g' gs ih =>
    intro fuel slots pos rem s hs hf hpl htot hlen ha hduty
    obtain ⟨fuel, rfl⟩ := Nat.exists_eq_succ_of_ne_zero (Nat.ne_zero_of_lt hf)
    have hblocks := blocksTouched_pos g'
    rw [totalBytes_cons] at htot hduty
    rw [chainPieces_cons, List.length_append, segmentPieces_length] at hlen
    obtain ⟨s', ha', hloop⟩ := buildLoop_listed (fuel := fuel) (pos := pos) hs (hpl g' List.mem_cons_self)
      (show g'.len ≤ rem by omega) (show blocksTouched g' ≤ slots by omega) ha
    rw [Nat.succ_eq_add_one, hloop]
    exact ih _ _ _ _ _ (by omega) (by omega) (fun q hq => hpl q (List.mem_cons_of_mem g' hq)) (by omega)
      (by omega) ha' (by rw [Nat.sub_sub, hduty])

/-- Settles O33. -/
theorem brokenProviderDutyRefused : Obligations.BrokenProviderDutyRefused := by
  intro s gs g rest hv hpl htot hlen ha hduty
  have hbuild : build (armed s) = .brokenDuty := by
    rw [build_of_buffer ((bufferValid_armed s).trans hv), armed_cmdPosition, armed_cmdByteCount]
    exact buildLoop_of_brokenDuty gs _ _ _ _ _ (Nat.le_refl _) (Nat.lt_succ_self _) hpl htot hlen
      (by rw [armed_segAnswers, ha]) hduty
  show execStartdma s = _
  rw [execStartdma, hbuild]

/-- The error code of a STARTDMA that goes through tells its cause: no buffer, or all 64 entries written (R164,
R167). -/
theorem exec_startdma_error_cause {s t : State} (h : exec .startdma s = .next t) :
    (t.opstat = 0x02 → bufferValid s = false) ∧ (t.opstat = 0x03 → t.prdCount = 64) := by
  change execStartdma s = _ at h
  rcases execStartdma_cases s with ⟨hv, he⟩ | ⟨_, ⟨b, he, _, _⟩ | ⟨b, he, _, _, hcount⟩ | he⟩
  all_goals
    rw [he] at h
    cases h
  · exact ⟨fun _ => hv, by simp⟩
  · simp
  · simp [hcount]

/-- Settles O34: with a buffer the duties are kept, without one no query is made. -/
theorem startdmaCompletes : Obligations.StartdmaCompletes := by
  intro s hduties
  have hnext : ∃ t, exec .startdma s = .next t := by
    cases hv : bufferValid s with
    | false => exact ⟨_, execStartdma_noBuffer s hv⟩
    | true => exact execStartdma_completes s (hduties hv)
  obtain ⟨t, ht⟩ := hnext
  obtain ⟨hnull, hexhausted⟩ := exec_startdma_error_cause ht
  refine ⟨t, ht, ?_⟩
  rcases exec_startdma_transitions ht with hok | ⟨hcode, hdma, hlast⟩ | ⟨hcode, hdma, hlast⟩
  · exact .inl hok
  · exact .inr (.inl ⟨hcode, hnull hcode, hdma, hlast⟩)
  · exact .inr (.inr ⟨hcode, hdma, hlast, hexhausted hcode⟩)

end Sys2Proof.Machine
end

section
/-! SUPPORT. The life of a program at the engine: how a start ends, what a stop and ONINT leave, DONE, the host's own
engine writes, and a covered transfer from its start to its outcome (spec/43_dma_engine.md R200 to R216). -/

namespace Sys2Proof.Machine

/-! ### STOPDMA (R203) -/

/-- STOPDMA is `stop_core` and nothing more (R203). -/
theorem exec_stopdma (s : State) : exec .stopdma s = .next (finish .ok (stopCore s)) := rfl

theorem stopCore_of_inactive {s : State} (h : s.dma = .inactive) : stopCore s = s := if_pos h

/-- Settles O37: the stop by its frame. -/
theorem stopdmaHaltsAndRecords : Obligations.StopdmaHaltsAndRecords := by
  refine ⟨decodeOfEncode .stopdma, fun s => ?_⟩
  rw [exec_stopdma, stopCore_frame]
  rfl

/-- Settles O38: the first stop leaves Inactive, where a stop does nothing, and an effective stop halts. -/
theorem stoppedStaysStopped : Obligations.StoppedStaysStopped := by
  refine fun s => ⟨_, exec_stopdma s, ?_, fun hd => ?_⟩
  · have hstopped : (finish .ok (stopCore s)).dma = .inactive := stopCore_dma s
    rw [exec_stopdma, stopCore_of_inactive hstopped]
    rfl
  · obtain ⟨hcmd, _⟩ := stopCore_halts hd
    exact (engineRunning_eq_false_iff _).mpr (.inl hcmd)

/-! ### ONINT (R205, R209) -/

/-- ONINT in Status, in one equation: the outcome by the error bit alone, then the stop (R205, R216). -/
theorem exec_onint_settles {s : State} (h : s.dma = .status) :
    exec .onint s = .next { s with
      cmdActual := if s.engine.err then s.cmdActual else s.cmdByteCount
      dma := .inactive
      lastStop := if s.engine.err then .error else .complete
      engine := { s.engine with cmd := 0, active := false, err := false, int := false }
      bmTrace := s.bmTrace ++ [.read .status, .write .status 0x06, .write .cmd 0x00]
      draws := s.draws + 1
      opstat := 0x00 } := by
  rw [exec_onint_armed h, stopCore_settleProgram, afterStatusRead_bmTrace, List.append_assoc]
  rfl

/-- Settles O39. -/
theorem onintSettlesProgram : Obligations.OnintSettlesProgram := by
  refine ⟨decodeOfEncode .onint, fun s => ⟨s.draws + 1, ?_⟩⟩
  split
  next hd => exact exec_onint_settles hd
  next hd => exact exec_onint_unarmed hd

/-! ### How a start ends (R204, R207) -/

/-- A STARTDMA that ends with code 0 has started the engine on what BUILD left. -/
theorem exec_startdma_started {s t : State} (h : exec .startdma s = .next t) (hcode : t.opstat = 0x00) :
    ∃ b, t = finish .ok (startEngine b) ∧ b.dma = .status ∧ BuildFrame (armed s) b := by
  change execStartdma s = _ at h
  rcases execStartdma_cases s with ⟨_, he⟩ | ⟨_, ⟨b, he, hd, hb⟩ | ⟨b, he, _⟩ | he⟩
  all_goals
    rw [he] at h
    cases h
  · cases hcode
  · exact ⟨b, rfl, hd, hb.frame⟩
  · cases hcode

theorem BuildFrame_refl (s : State) : BuildFrame s s := rfl

/-- A STARTDMA that ends with another code has stopped the block, in Starting for want of a buffer or in Error on an
exhausted table. -/
theorem exec_startdma_failed {s t : State} (h : exec .startdma s = .next t) (hcode : t.opstat ≠ 0x00) :
    ∃ b c, t = finish c (stopCore b) ∧ BuildFrame (armed s) b ∧
      ((c = .errNullBuffer ∧ b.dma = .starting) ∨ (c = .errTableExhausted ∧ b.dma = .error)) := by
  change execStartdma s = _ at h
  rcases execStartdma_cases s with ⟨_, he⟩ | ⟨_, ⟨b, he, _⟩ | ⟨b, he, hd, hb, _⟩ | he⟩
  all_goals
    rw [he] at h
    cases h
  · exact ⟨armed s, _, rfl, BuildFrame_refl _, .inl ⟨rfl, armed_dma s⟩⟩
  · exact absurd rfl hcode
  · exact ⟨b, _, rfl, hb.frame, .inr ⟨rfl, hd⟩⟩

/-- A build leaves the engine as the stop before it did (R176). -/
theorem BuildFrame.engine_eq {s b : State} (h : BuildFrame (armed s) b) : b.engine = engineStopped s.dma s.engine := by
  rw [h]
  exact armed_engine s

theorem BuildFrame.bmTrace_eq {s b : State} (h : BuildFrame (armed s) b) :
    b.bmTrace = s.bmTrace ++ stopWritesFrom s.dma := by
  rw [h]
  exact armed_bmTrace s

/-- Settles O35: the failed build stands in Starting or Error, so the stop after it is effective. -/
theorem failedStartStopsEngine : Obligations.FailedStartStopsEngine := by
  intro s t h hcode
  obtain ⟨b, c, rfl, hframe, hcause⟩ := exec_startdma_failed h hcode
  have hd : b.dma ≠ .inactive := by rcases hcause with ⟨_, hd⟩ | ⟨_, hd⟩ <;> simp [hd]
  have hengine : (stopCore b).engine = { s.engine with cmd := 0, active := false, err := false, int := false } := by
    rw [stopCore_engine, hframe.engine_eq, engineStopped_twice hd]
  have hwrites : stopWritesFrom b.dma = stopWrites := if_neg hd
  refine ⟨?_, stopCore_dma b, ?_, ?_, ?_, ?_⟩
  · rw [finish_bmTrace, stopCore_bmTrace, hframe.bmTrace_eq, hwrites]
    rfl
  · rcases hcause with ⟨_, hd⟩ | ⟨_, hd⟩ <;> simp [hd, lastStopAfter, DmaState.code]
  · rcases hcause with ⟨rfl, hd⟩ | ⟨rfl, hd⟩ <;> simp [hd, lastStopAfter, DmaState.code]
  · rw [finish_engine, hengine]
  · rw [finish_engine, hengine]

/-- The engine after a successful start: what the stop of a prior program left, with the table base and the start
command in it (R202, R204, R206, R215). -/
theorem exec_startdma_engine {s t : State} (h : exec .startdma s = .next t) (hcode : t.opstat = 0x00) :
    t.engine = { engineStopped s.dma s.engine with
      prdtp := s.prdBase &&& 0xFFFFFFFC#32
      cmd := if s.cmdFlags.getLsbD 0 then 0x09 else 0x01
      active := if (engineStopped s.dma s.engine).cmd.getLsbD 0 then (engineStopped s.dma s.engine).active
        else true } := by
  obtain ⟨b, rfl, _, hframe⟩ := exec_startdma_started h hcode
  rw [finish_engine, startEngine_frame, ← hframe.engine_eq, hframe]
  simp [readDirection]

theorem engineStopped_err (d : DmaState) (e : Engine) :
    (engineStopped d e).err = (decide (d = .inactive) && e.err) := by
  cases d <;> rfl

theorem engineStopped_int (d : DmaState) (e : Engine) :
    (engineStopped d e).int = (decide (d = .inactive) && e.int) := by
  cases d <;> rfl

/-- Settles O36: the engine after the start, field by field. -/
theorem successfulStartProgramsEngine : Obligations.SuccessfulStartProgramsEngine := by
  intro s t h hcode
  rw [exec_startdma_engine h hcode]
  refine ⟨rfl, rfl, fun hready => ?_, engineStopped_err _ _, engineStopped_int _ _⟩
  exact if_neg (by rw [engineStopped_ready hready]; exact Bool.false_ne_true)

/-! ### ONINT after a start (R266, R267) -/

/-- The byte count, CMD_ACTUAL, the events that wait and the device's interrupts are as they were before a STARTDMA
that goes through (R204). -/
theorem exec_startdma_keeps {s t : State} (h : exec .startdma s = .next t) :
    t.cmdByteCount = s.cmdByteCount ∧ t.cmdActual = s.cmdActual ∧ t.events = s.events ∧
      t.deviceIrqs = s.deviceIrqs := by
  rw [execStartdma_frame s t h]
  exact ⟨rfl, rfl, rfl, rfl⟩

/-- A successful start leaves the block in Status (R201, R204). -/
theorem exec_startdma_status {s t : State} (h : exec .startdma s = .next t) (hcode : t.opstat = 0x00) :
    t.dma = .status := by
  obtain ⟨b, rfl, hd, _⟩ := exec_startdma_started h hcode
  rw [finish_dma, startEngine_dma, hd]

/-- A start clears ERR exactly if it stopped a program (R202, R267). -/
theorem exec_startdma_err {s t : State} (h : exec .startdma s = .next t) (hcode : t.opstat = 0x00) :
    t.engine.err = (decide (s.dma = .inactive) && s.engine.err) := by
  obtain ⟨_, _, _, herr, _⟩ := successfulStartProgramsEngine s t h hcode
  exact herr

/-- Settles O41: the ERR that was there is still there for ONINT, whatever DONE adds. -/
theorem staleErrorReportedByOnint : Obligations.StaleErrorReportedByOnint := by
  intro s t e hd herr h hcode
  obtain ⟨_, hactual, _, _⟩ := exec_startdma_keeps h
  have hstatus : (engineDone e t).dma = .status := (engineDone_dma e t).trans (exec_startdma_status h hcode)
  have hstale : (engineDone e t).engine.err = true := by
    simp [exec_startdma_err h hcode, hd, herr]
  refine ⟨_, exec_onint_settles hstatus, if_pos hstale, ?_⟩
  exact (if_pos hstale).trans hactual

/-- Settles O42: without an ERR left, ONINT finds the error bit 0 and takes the program as complete. -/
theorem earlyOnintTakenAsCompletion : Obligations.EarlyOnintTakenAsCompletion := by
  intro s t h hcode hclean
  obtain ⟨hcount, _, _, _⟩ := exec_startdma_keeps h
  have hnoerr : ¬ t.engine.err = true := by
    rw [exec_startdma_err h hcode]
    rcases hclean with hd | herr
    · simp [hd]
    · simp [herr]
  refine ⟨_, exec_onint_settles (exec_startdma_status h hcode), if_neg hnoerr, ?_, rfl, rfl⟩
  exact (if_neg hnoerr).trans hcount

/-! ### DONE and the host's own engine writes (R215, R238, R264, R272) -/

theorem engineRunning_iff (s : State) :
    engineRunning s = true ↔ s.engine.cmd.getLsbD 0 = true ∧ s.engine.active = true :=
  Bool.and_eq_true_iff

/-- A DONE that can occur is a step (R215). -/
theorem step_done {s : State} {e : Bool} {rest : List Event} (h : s.events = .done e :: rest)
    (hrun : engineRunning s = true) : step s = .next (engineDone e { s with events := rest }) := by
  rw [step_of_events h]
  exact if_pos hrun

/-- Settles O48: DONE can occur exactly while the engine runs. -/
theorem doneStepEndsTransfer : Obligations.DoneStepEndsTransfer := by
  intro s e rest h
  split
  next hrun => exact step_done h ((engineRunning_iff s).mpr hrun)
  next hrun =>
    rw [step_of_events h]
    exact if_neg fun hr => hrun ((engineRunning_iff s).mp hr)

/-- A command write that starts nothing halts the engine and stores the low 8 bits (R215). -/
theorem engineWrite_cmd_noStart {v : Word} (h : v.getLsbD 0 = false) (e : Engine) :
    engineWrite .cmd v e = { e with cmd := BitVec.ofNat 8 (v.toNat % 2 ^ 8), active := false } := by
  have hlow : v.extractLsb' 0 8 = BitVec.ofNat 8 (v.toNat % 2 ^ 8) := BitVec.eq_of_toNat_eq (by simp)
  rw [engineWrite, h, hlow]
  rfl

/-- A status write clears ERR and INT where it has a 1 (R215). -/
theorem engineWrite_status (v : Word) (e : Engine) :
    engineWrite .status v e = { e with err := e.err && !v.getLsbD 1, int := e.int && !v.getLsbD 2 } := by
  rw [engineWrite]
  cases v.getLsbD 1 <;> cases v.getLsbD 2 <;> simp

/-- A table-base write stores bits [31:2] (R200, R215). -/
theorem engineWrite_prdtp (v : Word) (e : Engine) :
    engineWrite .prdtp v e = { e with prdtp := BitVec.ofNat 32 (v.toNat / 4 * 4) } := by
  rw [engineWrite, ← toNat_and_dwordMask, BitVec.ofNat_toNat, BitVec.setWidth_eq]

/-- The host's engine write where it may make it: no program is held and nothing is started (R264, R272). -/
theorem step_bmWrite {s : State} {r : BmReg} {v : Word} {rest : List Event} (h : s.events = .bmWrite r v :: rest)
    (hd : s.dma ≠ .status) (hv : r = .cmd → v.getLsbD 0 = false) :
    step s = .next { s with events := rest, engine := engineWrite r v s.engine } := by
  rw [step_of_events h]
  exact (if_neg hd).trans (if_neg (by simpa using hv))

/-- Settles O49: the two refusals, and the engine write of each register. -/
theorem hostEngineWriteDuty : Obligations.HostEngineWriteDuty := by
  intro s r v rest h
  refine ⟨fun hd => ?_, ?_, ?_, ?_, ?_⟩
  · rw [step_of_events h]
    exact if_pos hd
  · rintro hd rfl hv
    rw [step_of_events h]
    exact (if_neg hd).trans (if_pos (by simp [hv]))
  · rintro hd rfl hv
    rw [step_bmWrite h hd fun _ => hv, engineWrite_cmd_noStart hv]
  · rintro hd rfl
    rw [step_bmWrite h hd nofun, engineWrite_status]
  · rintro hd rfl
    rw [step_bmWrite h hd nofun, engineWrite_prdtp]

/-! ### A transfer from its start to its outcome (R204, R205, R208) -/

/-- A run whose first step goes through goes on from there. -/
theorem run_succ_of_step {s u : State} (h : step s = .next u) (n : Nat) : core.run (n + 1) s = core.run n u := by
  have hstep : core.step s = .next u := h
  simp only [Host.Core.run, hstep]

/-- The host's ONINT for a program, as a step (R100, R205). -/
theorem step_onint_settles {s : State} {evs : List Event} (hd : s.dma = .status)
    (h : s.events = .write 32 0x000 0x00000022#32 :: evs) :
    step s = .next { s with
      events := evs
      opr := 0x00000022#32
      cmdActual := if s.engine.err then s.cmdActual else s.cmdByteCount
      dma := .inactive
      lastStop := if s.engine.err then .error else .complete
      engine := { s.engine with cmd := 0, active := false, err := false, int := false }
      bmTrace := s.bmTrace ++ [.read .status, .write .status 0x06, .write .cmd 0x00]
      draws := s.draws + 1
      opstat := 0x00 } :=
  (stepRunsDecodedOperation s _ evs _ h (decodeOfEncode .onint)).trans
    (exec_onint_settles (s := { s with events := evs, opr := 0x00000022#32 }) hd)

/-- The outcome of a running program: DONE(e), then the ONINT that the host issues for it (R205, R208, R215). -/
theorem run_done_onint {s : State} {e : Bool} {evs : List Event} (hd : s.dma = .status)
    (hrun : engineRunning s = true) (h : s.events = .done e :: .write 32 0x000 0x00000022#32 :: evs) :
    core.run 2 s = .next { s with
      events := evs
      opr := 0x00000022#32
      opstat := 0x00
      dma := .inactive
      lastStop := if s.engine.err || e then .error else .complete
      cmdActual := if s.engine.err || e then s.cmdActual else s.cmdByteCount
      engine := { s.engine with cmd := 0, active := false, err := false, int := false }
      bmTrace := s.bmTrace ++ [.read .status, .write .status 0x06, .write .cmd 0x00]
      draws := s.draws + 1
      deviceIrqs := s.deviceIrqs + 1 } := by
  have hdone := step_done h hrun
  have honint := step_onint_settles
    (s := engineDone e { s with events := .write 32 0x000 0x00000022#32 :: evs }) hd rfl
  rw [run_succ_of_step hdone, run_succ_of_step honint]
  rfl

/-- On an engine as the host's boot duty leaves it, a start makes the engine run without an error (R264). -/
theorem exec_startdma_runs_clean {s t : State} (h : exec .startdma s = .next t) (hcode : t.opstat = 0x00)
    (hcmd : s.engine.cmd.getLsbD 0 = false) (herr : s.engine.err = false) :
    engineRunning t = true ∧ t.engine.err = false ∧ t.engine.prdtp = s.prdBase &&& 0xFFFFFFFC#32 := by
  obtain ⟨hbase, hstart, hactive, _, _⟩ := successfulStartProgramsEngine s t h hcode
  refine ⟨(engineRunning_iff t).mpr ⟨?_, hactive (.inr hcmd)⟩, ?_, hbase⟩
  · rw [hstart]
    split <;> decide
  · rw [exec_startdma_err h hcode, herr, Bool.and_false]

/-- Settles O51: the start builds the chain and makes the engine run without an error, so DONE's draw alone decides
what ONINT finds. -/
theorem transferRunsToItsOutcome : Obligations.TransferRunsToItsOutcome := by
  intro s gs rest e evs _ hcmd herr hv hpl htot ha hlen hev
  obtain ⟨t, hexec, hcode, hstatus, _, hcount, _⟩ := exec_startdma_leaves_chain
    (s := { s with events := .done e :: .write 32 0x000 0x00000022#32 :: evs, opr := 0x00000020#32 })
    hv hpl ha hlen (.inl htot)
  have hstart := (stepRunsDecodedOperation s _ _ _ hev (decodeOfEncode .startdma)).trans hexec
  obtain ⟨hrun, hclean, hbase⟩ := exec_startdma_runs_clean hexec hcode hcmd herr
  obtain ⟨hbytes, hactual, hevents, hirqs⟩ := exec_startdma_keeps hexec
  refine ⟨_, (run_succ_of_step hstart 2).trans (run_done_onint hstatus hrun hevents), rfl, rfl, rfl, rfl,
    ?_, ?_, hcount, ?_, ?_⟩
  · simp only [hclean, Bool.false_or]
  · simp only [hclean, Bool.false_or, hbytes, hactual]
  · simp only [hbase]
  · simp only [hirqs]

end Sys2Proof.Machine
end
